-- ==== Sys2Proof/Word.lean ====
section
/-! DEFINITION. The word types of the block: bytes, the 16-bit sums of ADL, and the W = 64 bit registers of DEC
(spec/00_scope.md R6, R7; spec/10_state.md R11, R12). -/

namespace Sys2Proof

/-- A byte of a stream, of a buffer or of checksum data (R7: "A byte is 8 bits"). -/
abbrev Byte := BitVec 8

/-- One Adler-32 accumulator (R11). -/
abbrev Half := BitVec 16

/-- A cursor or length register, W = 64 bits (R6, R12). -/
abbrev Word := BitVec 64

/-- The register holding a computed number. The rules compute on unbounded integers and every computed cursor fits
(R13), so nothing is lost here in any state: each use stands behind a check against a 64-bit register. -/
abbrev toWord (n : Nat) : Word := BitVec.ofNat 64 n

end Sys2Proof
end

