-- ==== Sys2Proof/Config.lean ====
section
/-! DEFINITION. The constants of spec/00_scope.md R4 and R5, the parameters R6 leaves open, and the free values: what
the spec calls unspecified and no proof may know. -/

namespace Sys2Proof.Config

/-- `ADLER_MOD` (R4): the modulus of both accumulators. -/
def adlerMod : Nat := 65521

/-- `ADLER_NMAX` (R4): most bytes between two reductions with 32-bit accumulators. -/
def adlerNmax : Nat := 5552

/-- `ADLER_SEED0` (R4): the checksum that starts an independent run. -/
def adlerSeed0 : BitVec 32 := 1

/-- `MAX_COPY` (R4): most literal bytes per literal run. -/
def maxCopy : Nat := 32

/-- `MAX_LEN` (R4, R5): most bytes one level-1 match produces. -/
def maxLen : Nat := 264

/-- `MAX_L1_DISTANCE` (R4): largest level-1 distance. -/
def maxL1Distance : Nat := 8192

/-- `MAX_L2_DISTANCE` (R4): level-2 near/far threshold on the stored distance. -/
def maxL2Distance : Nat := 8191

/-- Largest level-2 far distance (R5): `65535 + 8191 + 1`. -/
def maxFarDistance : Nat := 73727

/-- `FAR_MARK_HI` (R4): the tag's low five bits in a far match. -/
def farMarkHi : BitVec 5 := 31

/-- `FAR_MARK_LO` (R4): the byte in the `lo` position of a far match. -/
def farMarkLo : Byte := 255

/-- `LEN_CONT` (R4): a level-2 length byte meaning that more length follows. -/
def lenCont : Byte := 255

/-- `BLOCK_SIZE` (R4): the container's block size, informative. -/
def blockSize : Nat := 131072

/-- The parameters R6 leaves open: `IN_MAX`, `OUT_MAX`, `HAS_VONLY`. -/
structure Params where
  inMax : Nat
  outMax : Nat
  hasVonly : Bool
  deriving DecidableEq, Repr

/-- `IN_MAX - 1`. No body: R6 asks only `1 <= IN_MAX < 2^32`, which this type says. Log 1. -/
opaque inMaxLessOne : Fin 4294967295

/-- `OUT_MAX`. No body: R6 asks only `0 <= OUT_MAX < 2^32`. Log 1. -/
opaque outMaxBits : BitVec 32

/-- `HAS_VONLY`. No body: R6 leaves it open. Log 1. -/
opaque vonlyExists : Bool

/-- The parameters of this block, whatever they are. -/
def params : Params :=
  { inMax := inMaxLessOne.val + 1, outMax := outMaxBits.toNat, hasVonly := vonlyExists }

/-- FREE VALUE: the byte that offset `a` of `IN` holds after the `era`-th RESET until the host writes it (R27, U7).
Log 2. -/
opaque freeInByte : (era a : Nat) → Byte

/-- FREE VALUE: the byte that offset `a` of `OUT` holds after the `era`-th RESET until a run writes it (R27, U7).
Log 2. -/
opaque freeOutByte : (era a : Nat) → Byte

/-- FREE VALUE: what a host read of an `OUT` byte that is no result returns, for each run anew (R27, R46, U7). Log 3. -/
opaque freeOutWindow : (runs a : Nat) → Byte

end Sys2Proof.Config
end

