-- ==== Sys2Proof/Syntax.lean ====
section
/-! DEFINITION. The instructions: one constructor of `Instr` for each of the twelve rows of spec/opcode_table.json
(eight formats of the bitstream, four host commands), and the host operations of spec/10_state.md R21 that carry the
host commands and everything else the host can do. -/

namespace Sys2Proof

/-- One row of the opcode table each. Bitstream opcodes carry their operand bytes and fields as R62 lays them out; the
derived values (length, distance) are assembled in Machine/Operands.lean. -/
inductive Instr where
  /-- `HDR` (R63, R114): first opcode of a stream, level marker `M` and the literal bytes. -/
  | hdr (m : BitVec 3) (lits : List Byte)
  /-- `LIT` (R131): a literal run. -/
  | lit (lits : List Byte)
  /-- `M1S` (R141): level-1 short match, length field `L` in 1..6. -/
  | m1s (l : BitVec 3) (hi : BitVec 5) (lo : Byte)
  /-- `M1L` (R142): level-1 long match. -/
  | m1l (hi : BitVec 5) (ext lo : Byte)
  /-- `M2NS` (R155): level-2 near short match. -/
  | m2ns (l : BitVec 3) (hi : BitVec 5) (lo : Byte)
  /-- `M2NL` (R156): level-2 near long match, `k` continuation bytes of 255 and a final length byte `c`. -/
  | m2nl (hi : BitVec 5) (k : Nat) (c lo : Byte)
  /-- `M2FS` (R157): level-2 far short match. -/
  | m2fs (l : BitVec 3) (exhi exlo : Byte)
  /-- `M2FL` (R158): level-2 far long match. -/
  | m2fl (k : Nat) (c exhi exlo : Byte)
  /-- `ADL_LOAD` (R92): host write of register 0. -/
  | adlLoad (v : BitVec 32)
  /-- `ADL_PUSH` (R93): host write of register 1. -/
  | adlPush (b : Byte)
  /-- `ADL_READ` (R94): host read of register 0. -/
  | adlRead
  /-- `DEC_START` (R111): host write of register 2 with bit 0 set. -/
  | decStart
  deriving DecidableEq, Repr

/-- The twelve host registers of R21, in the order of their numbers 0 to 11. -/
inductive HostReg where
  | adlSum | adlData | decCmd | decMode | decInLen | decOutCap
  | decStatus | decOutLen | decErrIp | decErrOp | decIp | decOp
  deriving DecidableEq, Repr

/-- One atomic host operation (R21). A written value is a 64-bit word: no register is wider, and R28 ignores the bits
above a register's width. An offset into a window is a plain number: R21 defines the windows for every `a`. -/
inductive HostOp where
  | readReg (r : HostReg)
  | writeReg (r : HostReg) (v : Word)
  | readIn (a : Nat)
  | writeIn (a : Nat) (b : Byte)
  | readOut (a : Nat)
  | writeOut (a : Nat) (b : Byte)
  deriving DecidableEq, Repr

/-- A turn of one of the agents of R10: a host operation (ADL acts inside the ADL commands), a turn of DEC, or RESET. -/
inductive Input where
  | host (op : HostOp)
  | dec
  | reset
  deriving DecidableEq, Repr

/-- Where in a stream an opcode stands, which is all that R112 looks at to choose its format: the first opcode, or a
later one of a level-1 or level-2 stream. -/
inductive Dialect where
  | first | level1 | level2
  deriving DecidableEq, Repr

end Sys2Proof
end

