-- ==== Sys2Proof/WellFormed.lean ====
section
/-! DEFINITION. Which instructions can be spelled: the ranges of spec/30_encoding.md R62 and R64. -/

namespace Sys2Proof

/-- A literal run has 1 to 32 bytes (R130). -/
def litsOk (lits : List Byte) : Bool := 1 ≤ lits.length && lits.length ≤ Config.maxCopy

/-- The length field of a short match is 1..6 (R62). -/
def shortFieldOk (l : BitVec 3) : Bool := l != 0 && l != 7

/-- `hi`, `lo` are not the far marker pair (R62, R153). -/
def notFarMark (hi : BitVec 5) (lo : Byte) : Bool := !(hi == Config.farMarkHi && lo == Config.farMarkLo)

/-- Every operand is in the range its format gives it (R62, R63, R64). -/
def Instr.wf : Instr → Bool
  | .hdr m lits => m.toNat < 2 && litsOk lits
  | .lit lits => litsOk lits
  | .m1s l _ _ => shortFieldOk l
  | .m1l _ _ _ => true
  | .m2ns l hi lo => shortFieldOk l && notFarMark hi lo
  | .m2nl hi _ c lo => c != Config.lenCont && notFarMark hi lo
  | .m2fs l _ _ => shortFieldOk l
  | .m2fl _ c _ _ => c != Config.lenCont
  | .adlLoad _ => true
  | .adlPush _ => true
  | .adlRead => true
  | .decStart => true

/-- The dialects in which an opcode exists (R62, column "Level"; R63 for the first). Host commands are in none. -/
def Instr.fits : Instr → Dialect → Bool
  | .hdr _ _, d => d == .first
  | .lit _, d => d != .first
  | .m1s _ _ _, d => d == .level1
  | .m1l _ _ _, d => d == .level1
  | .m2ns _ _ _, d => d == .level2
  | .m2nl _ _ _ _, d => d == .level2
  | .m2fs _ _ _, d => d == .level2
  | .m2fl _ _ _ _, d => d == .level2
  | .adlLoad _, _ => false
  | .adlPush _, _ => false
  | .adlRead, _ => false
  | .decStart, _ => false

end Sys2Proof
end

