-- ==== Sys2Proof/Decode.lean ====
section
/-! DEFINITION. From bytes to instructions and back: spec/30_encoding.md R61 to R67. The decoder is total on any bytes
and rejects by name; the encoder is written from the table of R62. Host commands are encoded as host operations
(spec/10_state.md R21). -/

namespace Sys2Proof

/-- Bits 7:5 of a tag, `L` (R61), or the level marker `M` of the first byte (R63). -/
def tagLen (t : Byte) : BitVec 3 := t.extractLsb' 5 3

/-- Bits 4:0 of a tag, `X` (R61). -/
def tagLow (t : Byte) : BitVec 5 := t.extractLsb' 0 5

/-- The tag with bits 7:5 = `l` and bits 4:0 = `x` (R61). -/
def tagByte (l : BitVec 3) (x : BitVec 5) : Byte := l ++ x

/-- Why bytes are not an instruction. Each has its error in spec/60_exceptions.md R210. -/
inductive DecodeReject where
  /-- No byte at all: no tag to fetch. -/
  | noTag
  /-- The first byte's marker is 2..7 (R67). -/
  | illegalLevel (m : BitVec 3)
  /-- The bytes end inside the opcode (R171, R172); for the first opcode, the marker read before that. -/
  | truncated (marker : Option (BitVec 3))
  deriving DecidableEq, Repr

/-- What the decoder answers: an instruction and the bytes after it, or a rejection by name. -/
inductive Decoded where
  | instr (i : Instr) (rest : List Byte)
  | reject (r : DecodeReject)
  deriving DecidableEq, Repr

/-- The first `n` bytes and the rest, if there are `n`. -/
def takeBytes : Nat → List Byte → Option (List Byte × List Byte)
  | 0, bs => some ([], bs)
  | _ + 1, [] => none
  | n + 1, b :: bs =>
    match takeBytes n bs with
    | some (xs, rest) => some (b :: xs, rest)
    | none => none

/-- The level-2 length bytes (R152): the number `k` of 255 bytes, the final byte `c`, and the rest. -/
def lengthRun : List Byte → Option (Nat × Byte × List Byte)
  | [] => none
  | b :: bs =>
    if b = Config.lenCont then
      match lengthRun bs with
      | some (k, c, rest) => some (k + 1, c, rest)
      | none => none
    else some (0, b, bs)

/-- `HDR` after its tag (R63, R114): the marker is looked at before anything else of the opcode (R213). -/
def decodeFirst (t : Byte) (bs : List Byte) : Decoded :=
  if 2 ≤ (tagLen t).toNat then .reject (.illegalLevel (tagLen t))
  else
    match takeBytes ((tagLow t).toNat + 1) bs with
    | some (lits, rest) => .instr (.hdr (tagLen t) lits) rest
    | none => .reject (.truncated (some (tagLen t)))

/-- `LIT` after its tag (R131). -/
def decodeLit (t : Byte) (bs : List Byte) : Decoded :=
  match takeBytes ((tagLow t).toNat + 1) bs with
  | some (lits, rest) => .instr (.lit lits) rest
  | none => .reject (.truncated none)

/-- `M1S` and `M1L` after their tag (R141, R142, R66). -/
def decodeMatch1 (t : Byte) (bs : List Byte) : Decoded :=
  if tagLen t = 7 then
    match bs with
    | ext :: lo :: rest => .instr (.m1l (tagLow t) ext lo) rest
    | _ => .reject (.truncated none)
  else
    match bs with
    | lo :: rest => .instr (.m1s (tagLen t) (tagLow t) lo) rest
    | [] => .reject (.truncated none)

/-- The four level-2 matches after their tag: length bytes, `lo`, then near or far (R151 to R154, R66). -/
def decodeMatch2 (t : Byte) (bs : List Byte) : Decoded :=
  if tagLen t = 7 then
    match lengthRun bs with
    | none => .reject (.truncated none)
    | some (k, c, after) =>
      match after with
      | [] => .reject (.truncated none)
      | lo :: rest =>
        if notFarMark (tagLow t) lo then .instr (.m2nl (tagLow t) k c lo) rest
        else
          match rest with
          | exhi :: exlo :: rest' => .instr (.m2fl k c exhi exlo) rest'
          | _ => .reject (.truncated none)
  else
    match bs with
    | [] => .reject (.truncated none)
    | lo :: rest =>
      if notFarMark (tagLow t) lo then .instr (.m2ns (tagLen t) (tagLow t) lo) rest
      else
        match rest with
        | exhi :: exlo :: rest' => .instr (.m2fs (tagLen t) exhi exlo) rest'
        | _ => .reject (.truncated none)

/-- The opcode at the head of a byte sequence (R65, R112, R113): the tag chooses literal or match, the dialect the
level. -/
def decode (d : Dialect) : List Byte → Decoded
  | [] => .reject .noTag
  | t :: bs =>
    match d with
    | .first => decodeFirst t bs
    | .level1 => if tagLen t = 0 then decodeLit t bs else decodeMatch1 t bs
    | .level2 => if tagLen t = 0 then decodeLit t bs else decodeMatch2 t bs

/-- The bytes of a bitstream opcode, in address order (R62). A host command has none (R69). -/
def encode : Instr → List Byte
  | .hdr m lits => tagByte m (BitVec.ofNat 5 (lits.length - 1)) :: lits
  | .lit lits => tagByte 0 (BitVec.ofNat 5 (lits.length - 1)) :: lits
  | .m1s l hi lo => [tagByte l hi, lo]
  | .m1l hi ext lo => [tagByte 7 hi, ext, lo]
  | .m2ns l hi lo => [tagByte l hi, lo]
  | .m2nl hi k c lo => tagByte 7 hi :: (List.replicate k Config.lenCont ++ [c, lo])
  | .m2fs l exhi exlo => [tagByte l Config.farMarkHi, Config.farMarkLo, exhi, exlo]
  | .m2fl k c exhi exlo =>
    tagByte 7 Config.farMarkHi :: (List.replicate k Config.lenCont ++ [c, Config.farMarkLo, exhi, exlo])
  | .adlLoad _ => []
  | .adlPush _ => []
  | .adlRead => []
  | .decStart => []

/-- How many bytes of the stream an opcode has after its tag (R62, column "total length", less the tag). -/
def operandBytes : Instr → Nat
  | .hdr _ lits => lits.length
  | .lit lits => lits.length
  | .m1s _ _ _ => 1
  | .m1l _ _ _ => 2
  | .m2ns _ _ _ => 1
  | .m2nl _ k _ _ => k + 2
  | .m2fs _ _ _ => 3
  | .m2fl k _ _ _ => k + 4
  | .adlLoad _ => 0
  | .adlPush _ => 0
  | .adlRead => 0
  | .decStart => 0

/-- The host command that a host operation is (R21, R92, R93, R94, R111): only the register's own bits of a written
value count. The other host operations are no row of the opcode table. -/
def decodeHost (h : HostOp) : Option Instr :=
  match h with
  | .writeReg r v =>
    match r with
    | .adlSum => some (.adlLoad (v.setWidth 32))
    | .adlData => some (.adlPush (v.setWidth 8))
    | .decCmd => if v.getLsbD 0 then some .decStart else none
    | .decMode | .decInLen | .decOutCap | .decStatus | .decOutLen | .decErrIp | .decErrOp | .decIp | .decOp => none
  | .readReg r =>
    match r with
    | .adlSum => some .adlRead
    | .adlData | .decCmd | .decMode | .decInLen | .decOutCap | .decStatus | .decOutLen | .decErrIp | .decErrOp
    | .decIp | .decOp => none
  | .readIn _ => none
  | .writeIn _ _ => none
  | .readOut _ => none
  | .writeOut _ _ => none

/-- The host operation that issues a host command (R69: "the register number and written value"). -/
def encodeHost : Instr → Option HostOp
  | .adlLoad v => some (.writeReg .adlSum (v.setWidth 64))
  | .adlPush b => some (.writeReg .adlData (b.setWidth 64))
  | .adlRead => some (.readReg .adlSum)
  | .decStart => some (.writeReg .decCmd 1)
  | .hdr _ _ => none
  | .lit _ => none
  | .m1s _ _ _ => none
  | .m1l _ _ _ => none
  | .m2ns _ _ _ => none
  | .m2nl _ _ _ _ => none
  | .m2fs _ _ _ => none
  | .m2fl _ _ _ _ => none

/-- The dialect in which a word of the opcode table is read: a later opcode of a level-2 stream. The table's words do
not say where in a stream they stand, and one word is up to three rows' (R65). Log 9. -/
def tableDialect : Dialect := .level2

/-- The bytes of a table word, the first byte from bits 7:0, then enough zero bytes for any opcode's operands. -/
def tableBytes (nbits w : Nat) : List Byte :=
  (List.range ((nbits + 7) / 8)).map (fun j => BitVec.ofNat 8 ((w % 2 ^ nbits) >>> (8 * j))) ++ List.replicate 40 0

/-- The instruction the decoder reads from a word of the opcode table. Log 9. -/
def decodeTableWord (nbits w : Nat) : Option Instr :=
  match decode tableDialect (tableBytes nbits w) with
  | .instr i _ => some i
  | .reject _ => none

end Sys2Proof
end

