-- ==== Sys2Proof/Machine/Operands.lean ====
section
/-! DEFINITION. How each operand is assembled from the bytes of an opcode: the table of spec/30_encoding.md R64. -/

namespace Sys2Proof.Machine

/-- Length of a short match (R64): `(L - 1) + 3`, for `L` in 1..6. -/
def shortLen (l : BitVec 3) : Nat := l.toNat + 2

/-- Length of a level-1 long match (R64, R142): `6 + ext + 3`. -/
def longLen1 (ext : Byte) : Nat := 6 + ext.toNat + 3

/-- Length of a level-2 long match (R64, R152): `6 + 255 k + c + 3`. -/
def longLen2 (k : Nat) (c : Byte) : Nat := 6 + 255 * k + c.toNat + 3

/-- Near distance of both levels (R64): `(hi << 8) + lo + 1`. -/
def nearDist (hi : BitVec 5) (lo : Byte) : Nat := (hi.toNat <<< 8) + lo.toNat + 1

/-- Far distance of level 2 (R154): `(exhi << 8) + exlo + 8191 + 1`. -/
def farDist (exhi exlo : Byte) : Nat := (exhi.toNat <<< 8) + exlo.toNat + Config.maxL2Distance + 1

end Sys2Proof.Machine
end

