-- ==== Sys2Proof/Machine/State.lean ====
section
/-! DEFINITION. Everything the spec gives the machine to hold (spec/10_state.md), as plain data, and its value after
reset (R27). -/

namespace Sys2Proof.Machine

/-- `STATE` (R17). -/
inductive DecState where
  | idle | busy | done | error
  deriving DecidableEq, Repr

/-- `ERR_CODE` (R210). Codes 6 and 7 are never produced (U9), so the type has six members. -/
inductive ErrCode where
  | none | level | inUnderrun | outOverflow | badRef | param
  deriving DecidableEq, Repr

/-- A buffer: (offset, byte) pairs, offsets strictly rising. An offset that is not listed holds a byte nobody knows
(R27): it reads as a free value of Config. Log 2. -/
abbrev Memory := List Host.Cell

/-- The machine. The first sixteen fields are the spec's (R11, R12, R23); the last five are the model's own. -/
structure State where
  /-- `S1`, `S2` (R11). -/
  s1 : Half
  s2 : Half
  /-- `IN_LEN`, `OUT_CAP` (R12, R20). -/
  inLen : Word
  outCap : Word
  /-- `MODE` bit 0, `VONLY` (R19). -/
  mode : Bool
  /-- `STATE` (R17). -/
  st : DecState
  /-- `IP`, the program counter (R14), and `OP` (R15). -/
  ip : Word
  op : Word
  /-- `FIRST`, `LV2` (R16). -/
  first : Bool
  lv2 : Bool
  /-- `OUT_LEN`, `ERR_CODE`, `ERR_IP`, `ERR_OP` (R18). -/
  outLen : Word
  errCode : ErrCode
  errIp : Word
  errOp : Word
  /-- The buffers `IN` and `OUT` (R23). -/
  inBuf : Memory
  outBuf : Memory
  /-- MODEL: the turns still to come, oldest first (R10, R51). Log 5. -/
  inputs : List Input
  /-- MODEL: what the last host read returned (R21, R94). Log 4. -/
  hostRd : Word
  /-- MODEL: how many RESETs there have been; indexes the free bytes of the buffers. Log 17. -/
  era : Nat
  /-- MODEL: indexes the free bytes that host reads of unspecified `OUT` bytes return. Log 17. -/
  runs : Nat
  /-- MODEL: `OUT[0 .. outExtent-1]` is what the current or last writing run wrote (R46). Log 3. -/
  outExtent : Nat
  deriving DecidableEq, Repr

/-- Why the machine stops with a fault. It never does: the spec turns every bad condition into a decode error, which
is a state of the block (R215), so there is no constructor and nothing raises one. Log 12. -/
inductive Fault where
  deriving DecidableEq, Repr

/-- Why an instruction has no meaning. -/
inductive Refusal where
  /-- Raised only by an arm of `exec` whose instruction has no meaning yet (there is none); safe. -/
  | notModelled (mnemonic : String)
  deriving DecidableEq, Repr

/-- What an instruction or a step answers. -/
abbrev Result := Host.Outcome State Fault Refusal

/-- The block right after RESET (R27, R240): the registers as tabled, nothing known of the buffers. The model's own
fields have the values of log 4, 5 and 17. -/
def State.reset : State where
  s1 := 1
  s2 := 0
  inLen := 0
  outCap := 0
  mode := false
  st := .idle
  ip := 0
  op := 0
  first := false
  lv2 := false
  outLen := 0
  errCode := .none
  errIp := 0
  errOp := 0
  inBuf := []
  outBuf := []
  inputs := []
  hostRd := 0
  era := 0
  runs := 0
  outExtent := 0

end Sys2Proof.Machine
end

