-- ==== Sys2Proof/Machine/Ops.lean ====
section
/-! DEFINITION. The operations the meanings share: buffer access, the four checks of VAL, the error entry and the way
out of it, the two copies, the start of a run, the stop rule, and RESET. -/

namespace Sys2Proof.Machine

/-! ## Buffers (spec/20_memory.md) -/

/-- The canonical form: offsets strictly rising. No cell holds what an unlisted offset reads as, for that is no known
byte. -/
abbrev Memory.wf (m : Memory) : Prop := List.Pairwise (fun x y : Host.Cell => x.1 < y.1) m

/-- Every listed offset is below `n`: the bytes that exist in a buffer of that size (R23). -/
def Memory.below (m : Memory) (n : Nat) : Prop := ∀ c ∈ m, c.1 < n

/-- The byte listed at an offset, if any. -/
def Memory.lookup : Memory → Nat → Option Byte
  | [], _ => none
  | (k, b) :: m, a => if a = k then some b else Memory.lookup m a

/-- Write one byte (R44: every access is one byte wide). -/
def Memory.write : Memory → Nat → Byte → Memory
  | [], a, b => [(a, b)]
  | (k, c) :: m, a, b =>
    if a < k then (a, b) :: (k, c) :: m
    else if a = k then (a, b) :: m
    else (k, c) :: Memory.write m a b

/-- `IN[a]` (R8); a byte the host never wrote is a free value (R27). -/
def inByte (s : State) (a : Nat) : Byte := (s.inBuf.lookup a).getD (Config.freeInByte s.era a)

/-- The byte at `a` in a given content of `OUT`; a byte no run wrote is a free value (R27). -/
def outMemByte (era : Nat) (m : Memory) (a : Nat) : Byte := (m.lookup a).getD (Config.freeOutByte era a)

/-- `OUT[a]` (R8). -/
def outByte (s : State) (a : Nat) : Byte := outMemByte s.era s.outBuf a

/-- Bytes written one after another at rising offsets (R131: increasing `i`). -/
def storeBytes (m : Memory) (a : Nat) : List Byte → Memory
  | [] => m
  | b :: bs => storeBytes (m.write a b) (a + 1) bs

/-- The match copy loop (R140, R50): read one source byte, write one destination byte, then the next. -/
def copyForward (era : Nat) (m : Memory) (dst src : Nat) : Nat → Memory
  | 0 => m
  | n + 1 => copyForward era (m.write dst (outMemByte era m src)) (dst + 1) (src + 1) n

/-! ## The checks of VAL (spec/45_validator.md) -/

/-- `check_FETCH(a)` (R171). -/
def checkFetch (s : State) (a : Nat) : Bool := a < s.inLen.toNat

/-- `check_LIT_IN(ip, r)` (R172). -/
def checkLitIn (s : State) (ip r : Nat) : Bool := ip + r ≤ s.inLen.toNat

/-- `check_OUT(op, n)` (R173). -/
def checkOut (s : State) (op n : Nat) : Bool := op + n ≤ s.outCap.toNat

/-- `check_REF(op, dist)` (R174). -/
def checkRef (op dist : Nat) : Bool := dist ≤ op

/-- The guards of a match's operand bytes (R171, R176): `check_FETCH` of each of the `n` bytes after the tag. -/
def operandsPresent (s : State) (n : Nat) : Bool :=
  (List.range n).all fun j => checkFetch s (s.ip.toNat + 1 + j)

/-! ## The decode error (spec/60_exceptions.md) -/

/-- TAKING THE EXCEPTION: `raise DecodeError(code)` in the opcode whose tag is at `ip0` (R215). There is no vector and
no saved context: DEC stops, and the error registers say where. -/
def raiseDecodeError (code : ErrCode) (ip0 : Word) (s : State) : State :=
  { s with st := .error, errCode := code, errIp := ip0, errOp := s.op, ip := ip0, outLen := 0 }

/-- RETURN FROM THE EXCEPTION: a failed run is not resumed; the way out is a new start (R217), which puts every per-run
register back to its first value. It is also how every run begins (R111). In a normal run no byte of `OUT` is a result
any more; a validate-only run leaves `OUT` as it was (R46, log 3). -/
def clearRun (s : State) : State :=
  { s with
    ip := 0, op := 0, first := true, lv2 := false, outLen := 0, errCode := .none, errIp := 0, errOp := 0,
    runs := if s.mode then s.runs else s.runs + 1, outExtent := if s.mode then s.outExtent else 0 }

/-- `DEC_START` outside `BUSY` (R111, R214). -/
def startRun (p : Config.Params) (s : State) : State :=
  if p.inMax < s.inLen.toNat ∨ p.outMax < s.outCap.toNat then
    { clearRun s with st := .error, errCode := .param }
  else if s.inLen = 0 then { clearRun s with st := .done }
  else { clearRun s with st := .busy }

/-! ## Opcodes -/

/-- The first step takes the level from the marker (R114, R16). -/
def setLevel (m : BitVec 3) (s : State) : State := { s with lv2 := m.getLsbD 0, first := false }

/-- Both cursors move past an opcode: `n` bytes of stream, `len` bytes of output (R14, R15). -/
def advance (n len : Nat) (s : State) : State :=
  { s with ip := toWord (s.ip.toNat + n), op := toWord (s.op.toNat + len) }

/-- A new content of `OUT` that reaches `len` bytes past `OP`; a validate-only run writes nothing (R180). -/
def putOut (m : Memory) (len : Nat) (s : State) : State :=
  if s.mode then s else { s with outBuf := m, outExtent := s.op.toNat + len }

/-- `LIT(t)` (R131): both checks, then the copy, then the cursors. `s.ip` is at the tag. -/
def literalRun (lits : List Byte) (s : State) : State :=
  if checkLitIn s (s.ip.toNat + 1) lits.length = false then raiseDecodeError .inUnderrun s.ip s
  else if checkOut s s.op.toNat lits.length = false then raiseDecodeError .outOverflow s.ip s
  else advance (1 + lits.length) lits.length (putOut (storeBytes s.outBuf s.op.toNat lits) lits.length s)

/-- A match of `n` operand bytes, already assembled to `len` and `dist`: the fetch guards, then `COPY_MATCH` (R140),
checks in the order of R213. `s.ip` is at the tag. -/
def matchCopy (n len dist : Nat) (s : State) : State :=
  if operandsPresent s n = false then raiseDecodeError .inUnderrun s.ip s
  else if checkOut s s.op.toNat len = false then raiseDecodeError .outOverflow s.ip s
  else if checkRef s.op.toNat dist = false then raiseDecodeError .badRef s.ip s
  else
    advance (1 + n) len
      (putOut (copyForward s.era s.outBuf s.op.toNat (s.op.toNat - dist) len) len s)

/-- The stop rule (R116, R117), after an opcode. An opcode that raised has already left `BUSY`. -/
def stopRule (s : State) : State :=
  if s.st = .busy ∧ s.inLen.toNat < s.ip.toNat + 2 then { s with st := .done, outLen := s.op } else s

/-! ## RESET -/

/-- RESET (R240): registers as R27 tables them, nothing known of either buffer, even where a step was cut short. What
belongs to the outside (the turns to come, the host's last read) stays. Log 6. -/
def resetBlock (s : State) : State :=
  { State.reset with inputs := s.inputs, hostRd := s.hostRd, era := s.era + 1, runs := s.runs + 1 }

end Sys2Proof.Machine
end

