-- ==== Sys2Proof/Machine/Adler.lean ====
section
/-! DEFINITION. The Adler-32 unit: `ADL_LOAD`, `ADL_PUSH`, `ADL_READ` (spec/40_adler32.md). -/

namespace Sys2Proof.Machine

/-- One byte into the pair of sums (R91, R93): the new `S1` first, then `S2` with the new `S1`. The recurrences are the
spec's G1, log 14. -/
def adlerStep (b : Byte) (s1 s2 : Half) : Half × Half :=
  let s1n := (s1.toNat + b.toNat) % Config.adlerMod
  (BitVec.ofNat 16 s1n, BitVec.ofNat 16 ((s2.toNat + s1n) % Config.adlerMod))

/-- `{S2, S1}` (R11, R94). -/
def checksum (s : State) : BitVec 32 := s.s2 ++ s.s1

/-- `ADL_LOAD(v)` (R92): both halves as they are, without reduction. -/
def execAdlLoad (v : BitVec 32) (s : State) : Result :=
  .next { s with s1 := v.extractLsb' 0 16, s2 := v.extractLsb' 16 16 }

/-- `ADL_PUSH(b)` (R93). -/
def execAdlPush (b : Byte) (s : State) : Result :=
  .next { s with s1 := (adlerStep b s.s1 s.s2).1, s2 := (adlerStep b s.s1 s.s2).2 }

/-- `ADL_READ` (R94): the host gets the checksum, the block does not change. -/
def execAdlRead (s : State) : Result :=
  .next { s with hostRd := (checksum s).setWidth 64 }

end Sys2Proof.Machine
end

