-- ==== Sys2Proof/Machine/Control.lean ====
section
/-! DEFINITION. `DEC_START` (spec/41_decoder_control.md R111). -/

namespace Sys2Proof.Machine

/-- `DEC_START` (R111): ignored while `BUSY` (R247), else it starts a run. -/
def execDecStart (s : State) : Result :=
  .next (if s.st = .busy then s else startRun Config.params s)

end Sys2Proof.Machine
end

