-- ==== Sys2Proof/Machine/Literal.lean ====
section
/-! DEFINITION. Literal runs: `HDR` (spec/41_decoder_control.md R114) and `LIT` (spec/42_literal.md R131). -/

namespace Sys2Proof.Machine

/-- `HDR` (R114): an illegal marker raises before anything else; else the level is set and the opcode runs as `LIT`. -/
def execHdr (m : BitVec 3) (lits : List Byte) (s : State) : Result :=
  .next (if 2 ≤ m.toNat then raiseDecodeError .level s.ip s else literalRun lits (setLevel m s))

/-- `LIT` (R131). -/
def execLit (lits : List Byte) (s : State) : Result := .next (literalRun lits s)

end Sys2Proof.Machine
end

