-- ==== Sys2Proof/Machine/MatchL1.lean ====
section
/-! DEFINITION. Level-1 matches: `M1S`, `M1L` (spec/43_match_l1.md). -/

namespace Sys2Proof.Machine

/-- `M1S` (R141): one operand byte. -/
def execM1s (l : BitVec 3) (hi : BitVec 5) (lo : Byte) (s : State) : Result :=
  .next (matchCopy 1 (shortLen l) (nearDist hi lo) s)

/-- `M1L` (R142): `ext`, then `lo`. -/
def execM1l (hi : BitVec 5) (ext lo : Byte) (s : State) : Result :=
  .next (matchCopy 2 (longLen1 ext) (nearDist hi lo) s)

end Sys2Proof.Machine
end

