-- ==== Sys2Proof/Machine/MatchL2.lean ====
section
/-! DEFINITION. Level-2 matches: `M2NS`, `M2NL`, `M2FS`, `M2FL`, the four paths through `MATCH2`
(spec/44_match_l2.md R151). -/

namespace Sys2Proof.Machine

/-- `M2NS` (R155): one operand byte. -/
def execM2ns (l : BitVec 3) (hi : BitVec 5) (lo : Byte) (s : State) : Result :=
  .next (matchCopy 1 (shortLen l) (nearDist hi lo) s)

/-- `M2NL` (R156): `k` bytes of 255, `c`, `lo`. -/
def execM2nl (hi : BitVec 5) (k : Nat) (c lo : Byte) (s : State) : Result :=
  .next (matchCopy (k + 2) (longLen2 k c) (nearDist hi lo) s)

/-- `M2FS` (R157): 255, `exhi`, `exlo`. -/
def execM2fs (l : BitVec 3) (exhi exlo : Byte) (s : State) : Result :=
  .next (matchCopy 3 (shortLen l) (farDist exhi exlo) s)

/-- `M2FL` (R158): `k` bytes of 255, `c`, 255, `exhi`, `exlo`. -/
def execM2fl (k : Nat) (c exhi exlo : Byte) (s : State) : Result :=
  .next (matchCopy (k + 4) (longLen2 k c) (farDist exhi exlo) s)

end Sys2Proof.Machine
end

