-- ==== Sys2Proof/Machine/Dispatch.lean ====
section
/-! DEFINITION. One arm per instruction. An opcode runs from the state in which `IP` is at its tag; that `STATE` is
`BUSY` and the dialect is the opcode's is the step's business (spec/41_decoder_control.md R112), log 10. -/

namespace Sys2Proof.Machine

def exec (i : Instr) (s : State) : Host.Outcome State Fault Refusal :=
  match i with
  | .hdr m lits => Sys2Proof.Machine.execHdr m lits s
  | .lit lits => Sys2Proof.Machine.execLit lits s
  | .m1s l hi lo => Sys2Proof.Machine.execM1s l hi lo s
  | .m1l hi ext lo => Sys2Proof.Machine.execM1l hi ext lo s
  | .m2ns l hi lo => Sys2Proof.Machine.execM2ns l hi lo s
  | .m2nl hi k c lo => Sys2Proof.Machine.execM2nl hi k c lo s
  | .m2fs l exhi exlo => Sys2Proof.Machine.execM2fs l exhi exlo s
  | .m2fl k c exhi exlo => Sys2Proof.Machine.execM2fl k c exhi exlo s
  | .adlLoad v => Sys2Proof.Machine.execAdlLoad v s
  | .adlPush b => Sys2Proof.Machine.execAdlPush b s
  | .adlRead => Sys2Proof.Machine.execAdlRead s
  | .decStart => Sys2Proof.Machine.execDecStart s

end Sys2Proof.Machine
end

