-- ==== Sys2Proof/Machine/Flags.lean ====
section
/-! DEFINITION. The status the host sees. The block has no arithmetic flag (spec/10_state.md R17); its status is
`DEC_STATUS` (R22). -/

namespace Sys2Proof.Machine

/-- The number of a `STATE` (R17). -/
def stateNumber : DecState → BitVec 2
  | .idle => 0
  | .busy => 1
  | .done => 2
  | .error => 3

/-- The number of an `ERR_CODE` (R210). -/
def errNumber : ErrCode → BitVec 3
  | .none => 0
  | .level => 1
  | .inUnderrun => 2
  | .outOverflow => 3
  | .badRef => 4
  | .param => 5

/-- `DEC_STATUS` (R22): `STATE` in bits 1:0, `LV2` in bit 2, `FIRST` in bit 3, `ERR_CODE` in bits 6:4, zeros above. -/
def statusWord (s : State) : BitVec 32 :=
  (0 : BitVec 25) ++ errNumber s.errCode ++ BitVec.ofBool s.first ++ BitVec.ofBool s.lv2 ++ stateNumber s.st

end Sys2Proof.Machine
end

