-- ==== Sys2Proof/Machine/HostPort.lean ====
section
/-! DEFINITION. The host's register file and buffer windows, less the four commands that are instructions
(spec/10_state.md R21, R22, R28; the BUSY gate, spec/70_reset_and_hazards.md R247). -/

namespace Sys2Proof.Machine

/-- What a read of a register returns (R21), zero-extended (R28). `ADL_DATA` and `DEC_CMD` read 0. -/
def regValue (s : State) : HostReg → Word
  | .adlSum => (checksum s).setWidth 64
  | .adlData => 0
  | .decCmd => 0
  | .decMode => (BitVec.ofBool s.mode).setWidth 64
  | .decInLen => s.inLen
  | .decOutCap => s.outCap
  | .decStatus => (statusWord s).setWidth 64
  | .decOutLen => s.outLen
  | .decErrIp => s.errIp
  | .decErrOp => s.errOp
  | .decIp => s.ip
  | .decOp => s.op

/-- `HostReadIN(a)` (R21). -/
def readInWindow (p : Config.Params) (s : State) (a : Nat) : Byte := if a < p.inMax then inByte s a else 0

/-- `HostReadOUT(a)` (R21): the byte of `OUT` where R46 gives it a meaning, any byte where it is unspecified (R27,
log 3), 0 past the buffer. -/
def readOutWindow (p : Config.Params) (s : State) (a : Nat) : Byte :=
  if a < p.outMax then
    if a < s.outExtent then outByte s a else Config.freeOutWindow s.runs a
  else 0

/-- A write of a register (R21). The three loaders are ignored while `BUSY` (R247); `VONLY` is hardwired to 0 without
the mode (R19); `DEC_CMD` with bit 0 clear and the read-only registers do nothing. `ADL_SUM`, `ADL_DATA` and
`DEC_CMD` with bit 0 set never come here: they are instructions. -/
def writeReg (p : Config.Params) (r : HostReg) (v : Word) (s : State) : State :=
  match r with
  | .decMode => if s.st = .busy then s else { s with mode := v.getLsbD 0 && p.hasVonly }
  | .decInLen => if s.st = .busy then s else { s with inLen := v }
  | .decOutCap => if s.st = .busy then s else { s with outCap := v }
  | .adlSum => s
  | .adlData => s
  | .decCmd => s
  | .decStatus => s
  | .decOutLen => s
  | .decErrIp => s
  | .decErrOp => s
  | .decIp => s
  | .decOp => s

/-- `HostWriteIN(a, b)` (R21, R247). -/
def writeInWindow (p : Config.Params) (a : Nat) (b : Byte) (s : State) : State :=
  if a < p.inMax ∧ s.st ≠ .busy then { s with inBuf := s.inBuf.write a b } else s

/-- A host operation that is no row of the opcode table (R21). A read changes only what the host holds (R49). -/
def hostAccess (p : Config.Params) (h : HostOp) (s : State) : State :=
  match h with
  | .readReg r => { s with hostRd := regValue s r }
  | .writeReg r v => writeReg p r v s
  | .readIn a => { s with hostRd := (readInWindow p s a).setWidth 64 }
  | .writeIn a b => writeInWindow p a b s
  | .readOut a => { s with hostRd := (readOutWindow p s a).setWidth 64 }
  | .writeOut _ _ => s

end Sys2Proof.Machine
end

