-- ==== Sys2Proof/Machine/Agents.lean ====
section
/-! DEFINITION. The turns of the agents (spec/10_state.md R10): DEC's step (spec/41_decoder_control.md R112), a host
operation, RESET; and placing a word where DEC fetches. -/

namespace Sys2Proof.Machine

/-- Apply `f` to the next state, if there is one. -/
def mapNext (f : State → State) : Result → Result
  | .next s => .next (f s)
  | .fault r => .fault r
  | .refused r => .refused r

/-- Which dialect the next opcode is read in (R112): `FIRST`, then `LV2`. -/
def dialectOf (s : State) : Dialect := if s.first then .first else if s.lv2 then .level2 else .level1

/-- The stream from `IP` on: `IN[IP .. IN_LEN-1]`. DEC reads no other byte of `IN` (R41). -/
def streamTail (s : State) : List Byte :=
  (List.range (s.inLen.toNat - s.ip.toNat)).map fun j => inByte s (s.ip.toNat + j)

/-- The decode error of bytes that are no complete opcode: an illegal marker (R67, R114), or a byte at or beyond
`IN_LEN` (R14, R171, R172). The level of a first opcode is set before its operands are missed (R211, R215). Log 8. -/
def fetchError (r : DecodeReject) (s : State) : State :=
  match r with
  | .noTag => raiseDecodeError .inUnderrun s.ip s
  | .illegalLevel _ => raiseDecodeError .level s.ip s
  | .truncated none => raiseDecodeError .inUnderrun s.ip s
  | .truncated (some m) => raiseDecodeError .inUnderrun s.ip (setLevel m s)

/-- DEC's turn (R112): one opcode and then the stop rule while `BUSY`; nothing otherwise (R216, R234, log 7). -/
def decTurn (s : State) : Result :=
  if s.st = .busy then
    match decode (dialectOf s) (streamTail s) with
    | .instr i _ => mapNext stopRule (exec i s)
    | .reject r => .next (fetchError r s)
  else .next s

/-- A host operation's turn: a command is an instruction, anything else an access (R21). -/
def hostTurn (h : HostOp) (s : State) : Result :=
  match decodeHost h with
  | some i => exec i s
  | none => .next (hostAccess Config.params h s)

/-- One turn of one agent (R10). -/
def turn (e : Input) (s : State) : Result :=
  match e with
  | .host h => hostTurn h s
  | .dec => decTurn s
  | .reset => .next (resetBlock s)

/-- A word of the opcode table placed as DEC's next opcode: its bytes at `IP`, a running stream of the table's dialect
that holds exactly them, and DEC to move. Log 9. -/
def placeWord (nbits w : Nat) (s : State) : State :=
  { s with
    inputs := []
    st := .busy
    first := false
    lv2 := true
    inBuf := storeBytes s.inBuf s.ip.toNat (tableBytes nbits w)
    inLen := toWord (s.ip.toNat + (tableBytes nbits w).length) }

end Sys2Proof.Machine
end

