-- ==== Sys2Proof/Machine/Step.lean ====
section
/-! DEFINITION. One step of the machine: the next turn in `inputs`, or DEC's when none is listed (log 5). -/

namespace Sys2Proof.Machine

/-- One atomic turn (spec/10_state.md R10, spec/20_memory.md R51). -/
def step (s : State) : Host.Outcome State Fault Refusal :=
  match s.inputs with
  | [] => decTurn s
  | e :: rest => turn e { s with inputs := rest }

/-- The state with a word of the opcode table as the next opcode DEC fetches. Log 9. -/
def State.withFetchWord (s : State) (nbits w : Nat) : State := placeWord nbits w s

end Sys2Proof.Machine
end

