-- ==== Sys2Proof/Machine/Assembler.lean ====
section
/-! DEFINITION. The assembler and the emission rules of spec/46_encoder_reference.md, in its abstract syntax: how a
literal span or a (length, distance) pair becomes bytes, and which streams are canonical. The block itself does not
compress (spec/00_scope.md R3); this is the reference its decoder is held against. Log 19. -/

namespace Sys2Proof.Machine

/-! ## Emission (R191 to R196) -/

/-- `LIT` (R191): tag `r-1`, then the bytes. -/
def litBytes (bs : List Byte) : List Byte := BitVec.ofNat 8 (bs.length - 1) :: bs

/-- `LITRUN` (R192), with `n` bounding the number of groups. -/
def litRunBytes : Nat → List Byte → List Byte
  | 0, _ => []
  | n + 1, bs =>
    if bs.length ≤ Config.maxCopy then litBytes bs
    else litBytes (bs.take Config.maxCopy) ++ litRunBytes n (bs.drop Config.maxCopy)

/-- `LITRUN` (R192). -/
def emitLitRun (bs : List Byte) : List Byte := litRunBytes bs.length bs

/-- One level-1 match opcode (R194). -/
def emitM1 (lenEnc d : Nat) : List Byte :=
  if lenEnc < 7 then [BitVec.ofNat 8 ((lenEnc <<< 5) ||| (d >>> 8)), BitVec.ofNat 8 (d &&& 0xFF)]
  else [BitVec.ofNat 8 ((7 <<< 5) ||| (d >>> 8)), BitVec.ofNat 8 (lenEnc - 7), BitVec.ofNat 8 (d &&& 0xFF)]

/-- How many full 262-byte segments R195's loop emits before its last opcode. -/
def fullSegments (lenEnc : Nat) : Nat := (lenEnc - 1) / 262

/-- Level-1 `MATCH` (R195): full segments, each an `M1L` with extension byte 253, then the rest. -/
def emitMatch1 (len dist : Nat) : List Byte :=
  let lenEnc := len - 2
  let d := dist - 1
  (List.replicate (fullSegments lenEnc)
    [BitVec.ofNat 8 ((7 <<< 5) ||| (d >>> 8)), 253, BitVec.ofNat 8 (d &&& 0xFF)]).flatten ++
    emitM1 (lenEnc - 262 * fullSegments lenEnc) d

/-- Level-2 `MATCH` (R196): tag and length bytes, then the near or the far distance. -/
def emitMatch2 (len dist : Nat) : List Byte :=
  let lenEnc := len - 2
  let d := dist - 1
  let x := if d < Config.maxL2Distance then d >>> 8 else 31
  (if lenEnc < 7 then [BitVec.ofNat 8 ((lenEnc <<< 5) ||| x)]
    else
      BitVec.ofNat 8 ((7 <<< 5) ||| x) ::
        (List.replicate ((lenEnc - 7) / 255) Config.lenCont ++ [BitVec.ofNat 8 ((lenEnc - 7) % 255)])) ++
  (if d < Config.maxL2Distance then [BitVec.ofNat 8 (d &&& 0xFF)]
    else
      [Config.farMarkLo, BitVec.ofNat 8 ((d - Config.maxL2Distance) >>> 8),
        BitVec.ofNat 8 ((d - Config.maxL2Distance) &&& 0xFF)])

/-- `MATCH` at a level (R195, R196). -/
def emitMatch (lv2 : Bool) (len dist : Nat) : List Byte :=
  if lv2 then emitMatch2 len dist else emitMatch1 len dist

/-- `.level` (R197): a level-2 stream has bit 5 set in its first byte. -/
def markLevel (lv2 : Bool) : List Byte → List Byte
  | [] => []
  | b :: bs => (if lv2 then b ||| 0x20 else b) :: bs

/-! ## Canonical streams (R199) -/

/-- A `LITRUN` or a `MATCH`. -/
inductive LzItem where
  | lits (bs : List Byte)
  | copy (len dist : Nat)
  deriving DecidableEq, Repr

/-- The bytes of one item. -/
def emitItem (lv2 : Bool) : LzItem → List Byte
  | .lits bs => emitLitRun bs
  | .copy len dist => emitMatch lv2 len dist

/-- The canonical stream of a list of items (R199); of no item it is the empty stream. -/
def canonicalStream (lv2 : Bool) (items : List LzItem) : List Byte :=
  markLevel lv2 (items.flatMap (emitItem lv2))

/-- The largest distance of a level (R199). -/
def maxDistance (lv2 : Bool) : Nat := if lv2 then Config.maxFarDistance else Config.maxL1Distance

/-- The conditions of R199, with `n` bytes already described. None described means that only a `LITRUN` may come. -/
def itemsOk (lv2 : Bool) : Nat → List LzItem → Bool
  | _, [] => true
  | n, .lits bs :: rest => bs != [] && itemsOk lv2 (n + bs.length) rest
  | n, .copy len dist :: rest =>
    3 ≤ len && 1 ≤ dist && dist ≤ n && dist ≤ maxDistance lv2 && itemsOk lv2 (n + len) rest

/-- `len` bytes, each the byte `dist` before it (LZ77, R9). -/
def lzCopy (acc : List Byte) (dist : Nat) : Nat → List Byte
  | 0 => acc
  | n + 1 => lzCopy (acc ++ [acc.getD (acc.length - dist) 0]) dist n

/-- The data that a list of items describes (R199). -/
def lzExpand (items : List LzItem) : List Byte :=
  items.foldl
    (fun acc item =>
      match item with
      | .lits bs => acc ++ bs
      | .copy len dist => lzCopy acc dist len)
    []

/-! ## Assembler (R190) -/

/-- One statement after `.level`. -/
inductive AsmLine where
  | lit (bs : List Byte)
  | m1s (len dist : Nat)
  | m1l (len dist : Nat)
  | m2ns (len dist : Nat)
  | m2nl (len dist : Nat)
  | m2fs (len dist : Nat)
  | m2fl (len dist : Nat)
  | litrun (bs : List Byte)
  | pseudoMatch (len dist : Nat)
  | byte (b : Byte)
  deriving DecidableEq, Repr

/-- The length field of a short match (R190, R64). -/
def asmShortField (len : Nat) : BitVec 3 := BitVec.ofNat 3 (len - 2)

/-- The high five bits of the stored distance. -/
def asmHi (dist : Nat) : BitVec 5 := BitVec.ofNat 5 ((dist - 1) >>> 8)

/-- The low eight bits of the stored distance. -/
def asmLo (dist : Nat) : Byte := BitVec.ofNat 8 (dist - 1)

/-- The high and low byte of a far match's excess distance. -/
def asmExHi (dist : Nat) : Byte := BitVec.ofNat 8 ((dist - 8192) >>> 8)
def asmExLo (dist : Nat) : Byte := BitVec.ofNat 8 (dist - 8192)

/-- Length 3..8, 9..264, or 9 and up; distance in a range (R190's table). -/
def shortLenOk (len : Nat) : Bool := 3 ≤ len && len ≤ 8
def long1LenOk (len : Nat) : Bool := 9 ≤ len && len ≤ Config.maxLen
def inRange (lo hi n : Nat) : Bool := lo ≤ n && n ≤ hi

/-- The opcode a statement names; pseudo-instructions and raw bytes name none. -/
def asmInstr (lv2 : Bool) : AsmLine → Option Instr
  | .lit bs => if litsOk bs then some (.lit bs) else none
  | .m1s len dist =>
    if !lv2 && shortLenOk len && inRange 1 8192 dist then some (.m1s (asmShortField len) (asmHi dist) (asmLo dist))
    else none
  | .m1l len dist =>
    if !lv2 && long1LenOk len && inRange 1 8192 dist then
      some (.m1l (asmHi dist) (BitVec.ofNat 8 (len - 9)) (asmLo dist))
    else none
  | .m2ns len dist =>
    if lv2 && shortLenOk len && inRange 1 8191 dist then some (.m2ns (asmShortField len) (asmHi dist) (asmLo dist))
    else none
  | .m2nl len dist =>
    if lv2 && 9 ≤ len && inRange 1 8191 dist then
      some (.m2nl (asmHi dist) ((len - 9) / 255) (BitVec.ofNat 8 ((len - 9) % 255)) (asmLo dist))
    else none
  | .m2fs len dist =>
    if lv2 && shortLenOk len && inRange 8192 73727 dist then
      some (.m2fs (asmShortField len) (asmExHi dist) (asmExLo dist))
    else none
  | .m2fl len dist =>
    if lv2 && 9 ≤ len && inRange 8192 73727 dist then
      some (.m2fl ((len - 9) / 255) (BitVec.ofNat 8 ((len - 9) % 255)) (asmExHi dist) (asmExLo dist))
    else none
  | .litrun _ => none
  | .pseudoMatch _ _ => none
  | .byte _ => none

/-- The bytes of a statement. -/
def asmBytes (lv2 : Bool) (line : AsmLine) : Option (List Byte) :=
  match line with
  | .litrun bs => if bs = [] then none else some (emitLitRun bs)
  | .pseudoMatch len dist =>
    if 3 ≤ len && inRange 1 (maxDistance lv2) dist then some (emitMatch lv2 len dist) else none
  | .byte b => some [b]
  | other => (asmInstr lv2 other).map encode

/-- Whether a statement may be the first after `.level` (R190, R198). -/
def startsStream : AsmLine → Bool
  | .lit _ => true
  | .litrun _ => true
  | _ => false

/-- A program of one level as a stream (R190, R197), or nothing where a statement is out of its range or the first one
is no literal run. -/
def assemble (lv2 : Bool) (lines : List AsmLine) : Option (List Byte) :=
  match lines with
  | [] => some []
  | l :: ls =>
    if startsStream l then ((l :: ls).mapM (asmBytes lv2)).map fun parts => markLevel lv2 parts.flatten else none

end Sys2Proof.Machine
end

