-- ==== Sys2Proof/Machine/Run.lean ====
section
/-! DEFINITION. The two functions the block computes: `adler32(c, data)` (spec/40_adler32.md R95), with its twin that
reduces late (R97), and `decode(s, cap, vonly)` (spec/41_decoder_control.md R120), as runs of the machine. -/

namespace Sys2Proof.Machine

/-! ## Checksum -/

/-- The sums after a byte sequence, reduced after every byte (R91). -/
def adlerFold (p : Half × Half) (data : List Byte) : Half × Half :=
  data.foldl (fun q b => adlerStep b q.1 q.2) p

/-- The pair of sums of a 32-bit checksum, as `ADL_LOAD` takes it apart (R92). -/
def sumsOf (c : BitVec 32) : Half × Half := (c.extractLsb' 0 16, c.extractLsb' 16 16)

/-- `adler32(c, data)` (R95). -/
def adler32 (c : BitVec 32) (data : List Byte) : BitVec 32 :=
  (adlerFold (sumsOf c) data).2 ++ (adlerFold (sumsOf c) data).1

/-- The commands that compute `adler32(c, data)` (R95, R242). -/
def adlerCommands (c : BitVec 32) (data : List Byte) : List Instr :=
  .adlLoad c :: (data.map .adlPush ++ [.adlRead])

/-- Instructions one after another. -/
def execAll : List Instr → State → Result
  | [], s => .next s
  | i :: is, s =>
    match exec i s with
    | .next t => execAll is t
    | .fault r => .fault r
    | .refused r => .refused r

/-- One byte into 32-bit accumulators that are not reduced (R97). -/
def batchStep (p : BitVec 32 × BitVec 32) (b : Byte) : BitVec 32 × BitVec 32 :=
  (p.1 + b.setWidth 32, p.2 + (p.1 + b.setWidth 32))

/-- One batch: all its bytes, then one reduction (R97). -/
def adlerBatch (p : Half × Half) (data : List Byte) : Half × Half :=
  let q := data.foldl batchStep (p.1.setWidth 32, p.2.setWidth 32)
  (BitVec.ofNat 16 (q.1.toNat % Config.adlerMod), BitVec.ofNat 16 (q.2.toNat % Config.adlerMod))

/-! ## Decoding a stream -/

/-- What a run answers (R120). `unfinished` is no answer: the steps given did not suffice. -/
inductive RunResult where
  | done (len : Nat) (out : List Byte)
  | error (code : ErrCode) (errIp errOp : Nat)
  | unfinished
  deriving DecidableEq, Repr

/-- The result registers of a run that has ended, with the bytes a normal run wrote (R117, R120). -/
def resultOf (s : State) : RunResult :=
  match s.st with
  | .done => .done s.outLen.toNat (if s.mode then [] else (List.range s.outLen.toNat).map (outByte s))
  | .error => .error s.errCode s.errIp.toNat s.errOp.toNat
  | .idle => .unfinished
  | .busy => .unfinished

/-- At most `n` steps, until the run ends. -/
def runSteps : Nat → State → RunResult
  | 0, _ => .unfinished
  | n + 1, s =>
    match step s with
    | .next t => if t.st = .busy then runSteps n t else resultOf t
    | .fault _ => .unfinished
    | .refused _ => .unfinished

/-- The state of R120's first line: the stream in `IN`, the cursors at 0, and DEC running. -/
def loadedState (bs : List Byte) (cap : Word) (vonly : Bool) : State :=
  { clearRun { State.reset with mode := vonly } with
    st := .busy, inLen := toWord bs.length, outCap := cap, inBuf := storeBytes [] 0 bs }

/-- `decode(s, cap, vonly)` (R120). A step takes at least two bytes, so as many steps as bytes suffice (R118). -/
def decodeStream (bs : List Byte) (cap : Word) (vonly : Bool) : RunResult :=
  if bs = [] then .done 0 [] else runSteps bs.length (loadedState bs cap vonly)

end Sys2Proof.Machine
end

