-- ==== Sys2Proof/Safety.lean ====
section
/-! DEFINITION. What holds of the machine at every step boundary: the invariants of spec/45_validator.md R182 and R183,
the facts of spec/10_state.md R13, R14, R18 to R20, and the canonical form of the buffers. -/

namespace Sys2Proof.Machine

/-- The invariant of a machine with the parameters `p`. -/
structure State.Inv (p : Config.Params) (s : State) : Prop where
  /-- The buffers are in canonical form, -/
  inWf : s.inBuf.wf
  outWf : s.outBuf.wf
  /-- and hold only bytes that exist (R23). -/
  inAddr : s.inBuf.below p.inMax
  outAddr : s.outBuf.below p.outMax
  /-- `VONLY` is 0 where the mode does not exist (R19). -/
  vonlyHardwired : s.mode = true → p.hasVonly = true
  /-- During a run the lengths fit the buffers (R214) -/
  busyLengths : s.st = .busy → s.inLen.toNat ≤ p.inMax ∧ s.outCap.toNat ≤ p.outMax
  /-- and the output fits the capacity (R182). -/
  busyOut : s.st = .busy → s.op.toNat ≤ s.outCap.toNat
  /-- Before the first opcode both cursors are 0 and the stream is not empty (R14, R16, R116a). -/
  busyFirst : s.st = .busy → s.first = true → s.ip = 0 ∧ s.op = 0 ∧ s.lv2 = false ∧ 1 ≤ s.inLen.toNat
  /-- After it at least one byte is out (R182) and a tag and one more byte are still to come (R116a, R116b). -/
  busyLater : s.st = .busy → s.first = false → 1 ≤ s.op.toNat ∧ s.ip.toNat + 2 ≤ s.inLen.toNat
  /-- The result registers are clear during a run (R18), -/
  busyResult : s.st = .busy → s.outLen = 0 ∧ s.errCode = .none ∧ s.errIp = 0 ∧ s.errOp = 0
  /-- hold the length after `DONE` (R117), -/
  doneResult : s.st = .done → s.outLen = s.op ∧ s.errCode = .none ∧ s.errIp = 0 ∧ s.errOp = 0
  /-- hold the cause after `ERROR` (R215, R216), -/
  errorResult : s.st = .error → s.outLen = 0 ∧ s.errCode ≠ .none ∧ s.errIp = s.ip ∧ s.errOp = s.op
  /-- and are clear, like the cursors, while no run was made since RESET (R27). -/
  idleResult : s.st = .idle → s.ip = 0 ∧ s.op = 0 ∧ s.outLen = 0 ∧ s.errCode = .none ∧ s.errIp = 0 ∧ s.errOp = 0
  /-- Every byte that counts as output was written (R183), -/
  outWritten : ∀ a, a < s.outExtent → (s.outBuf.lookup a).isSome = true
  /-- and during a normal run these are the bytes below `OP` (R46, R183). -/
  busyExtent : s.st = .busy → s.mode = false → s.outExtent = s.op.toNat

/-- A run that ended well (R117). -/
def State.succeeded (s : State) : Prop := s.st = .done

/-- A run that ended in a decode error (R216). -/
def State.failed (s : State) : Prop := s.st = .error

end Sys2Proof.Machine
end

