-- ==== Sys2Proof/Certificates/Slice0/Obligations.lean ====
section
/-! DEFINITION. The statements for the provers. Each docstring names the rule of spec/ it formalises. The predicates of
`Sys2Proof.Claim` say, in the state's own fields and in plain arithmetic, what the statements about opcodes share. -/

namespace Sys2Proof.Claim

open Sys2Proof.Machine

/-- The state after `raise DecodeError(code)` in the opcode whose tag is at `s.ip` (R215): four registers written, the
cursors as they were. -/
def raised (code : ErrCode) (s : State) : State :=
  { s with st := .error, errCode := code, errIp := s.ip, errOp := s.op, outLen := 0 }

/-- An opcode that completes changes nothing but the cursors and the output. -/
def onlyCursorsAndOut (s t : State) : Prop :=
  t = { s with ip := t.ip, op := t.op, outBuf := t.outBuf, outExtent := t.outExtent }

/-- `OUT` outside the `len` bytes at `OP` reads as before. -/
def outsideUnchanged (len : Nat) (s t : State) : Prop :=
  ∀ a, a < s.op.toNat ∨ s.op.toNat + len ≤ a → outByte t a = outByte s a

/-- In a validate-only run all of `OUT` is as before (R180). -/
def noOutputInVonly (s t : State) : Prop :=
  s.mode = true → t.outBuf = s.outBuf ∧ t.outExtent = s.outExtent

/-- A literal run done (R131). -/
def literalDone (lits : List Byte) (s t : State) : Prop :=
  t.ip.toNat = s.ip.toNat + 1 + lits.length ∧ t.op.toNat = s.op.toNat + lits.length ∧
  (s.mode = false → ∀ i, (h : i < lits.length) → outByte t (s.op.toNat + i) = lits[i]) ∧
  outsideUnchanged lits.length s t ∧ noOutputInVonly s t ∧ onlyCursorsAndOut s t

/-- A match of `n` operand bytes done (R140): the `dist` bytes before `OP`, repeated over `len` bytes. -/
def matchDone (n len dist : Nat) (s t : State) : Prop :=
  t.ip.toNat = s.ip.toNat + 1 + n ∧ t.op.toNat = s.op.toNat + len ∧
  (s.mode = false → ∀ i, i < len → outByte t (s.op.toNat + i) = outByte s (s.op.toNat - dist + i % dist)) ∧
  outsideUnchanged len s t ∧ noOutputInVonly s t ∧ onlyCursorsAndOut s t

/-- The whole rule of a match opcode: it completes where its operand bytes are in the stream, its output fits and its
source exists; else it raises the first error in the order of R213. -/
def matchRule (i : Instr) (n len dist : Nat) : Prop :=
  ∀ s : State,
    (s.ip.toNat + 1 + n ≤ s.inLen.toNat → s.op.toNat + len ≤ s.outCap.toNat → dist ≤ s.op.toNat →
      ∃ t, exec i s = .next t ∧ matchDone n len dist s t) ∧
    (s.inLen.toNat < s.ip.toNat + 1 + n → exec i s = .next (raised .inUnderrun s)) ∧
    (s.ip.toNat + 1 + n ≤ s.inLen.toNat → s.outCap.toNat < s.op.toNat + len →
      exec i s = .next (raised .outOverflow s)) ∧
    (s.ip.toNat + 1 + n ≤ s.inLen.toNat → s.op.toNat + len ≤ s.outCap.toNat → s.op.toNat < dist →
      exec i s = .next (raised .badRef s))

/-- `IN[IP .. IN_LEN-1]`, written out. -/
def restOfStream (s : State) : List Byte :=
  (List.range (s.inLen.toNat - s.ip.toNat)).map fun j => inByte s (s.ip.toNat + j)

/-- The opcode map in force (R112): `FIRST`, else `LV2`. -/
def dialectIs (s : State) (d : Dialect) : Prop :=
  (s.first = true ∧ d = .first) ∨ (s.first = false ∧ s.lv2 = false ∧ d = .level1) ∨
  (s.first = false ∧ s.lv2 = true ∧ d = .level2)

/-- The stop rule, written out (R116, R117). -/
def afterStopRule (t : State) : State :=
  if t.st = .busy ∧ t.ip.toNat + 2 > t.inLen.toNat then { t with st := .done, outLen := t.op } else t

/-- DEC is running and has the turn. -/
def decMoves (s : State) : Prop := s.inputs = [] ∧ s.st = .busy

/-- The next turn is RESET. -/
def resetComes (s : State) : Prop := ∃ rest, s.inputs = .reset :: rest

/-- The next turn is a host operation. -/
def hostComes (s : State) : Prop := ∃ h rest, s.inputs = .host h :: rest

/-- The next turn is `DEC_START` (R111): a host write of `DEC_CMD` with bit 0 set. -/
def startComes (s : State) : Prop := ∃ v rest, s.inputs = .host (.writeReg .decCmd v) :: rest ∧ v.toNat % 2 = 1

/-- The number a host read of a register returns (R21, R22). -/
def registerReads (s : State) : HostReg → Nat
  | .adlSum => s.s2.toNat * 65536 + s.s1.toNat
  | .adlData => 0
  | .decCmd => 0
  | .decMode => s.mode.toNat
  | .decInLen => s.inLen.toNat
  | .decOutCap => s.outCap.toNat
  | .decStatus =>
    (match s.st with | .idle => 0 | .busy => 1 | .done => 2 | .error => 3) + 4 * s.lv2.toNat + 8 * s.first.toNat +
      16 * (match s.errCode with
        | .none => 0 | .level => 1 | .inUnderrun => 2 | .outOverflow => 3 | .badRef => 4 | .param => 5)
  | .decOutLen => s.outLen.toNat
  | .decErrIp => s.errIp.toNat
  | .decErrOp => s.errOp.toNat
  | .decIp => s.ip.toNat
  | .decOp => s.op.toNat

/-- The length and distance of a match instruction (R64). -/
def lengthAndDistance : Instr → Option (Nat × Nat)
  | .m1s l hi lo => some (l.toNat + 2, hi.toNat * 256 + lo.toNat + 1)
  | .m1l hi ext lo => some (ext.toNat + 9, hi.toNat * 256 + lo.toNat + 1)
  | .m2ns l hi lo => some (l.toNat + 2, hi.toNat * 256 + lo.toNat + 1)
  | .m2nl hi k c lo => some (255 * k + c.toNat + 9, hi.toNat * 256 + lo.toNat + 1)
  | .m2fs l exhi exlo => some (l.toNat + 2, exhi.toNat * 256 + exlo.toNat + 8192)
  | .m2fl k c exhi exlo => some (255 * k + c.toNat + 9, exhi.toNat * 256 + exlo.toNat + 8192)
  | .hdr _ _ => none
  | .lit _ => none
  | .adlLoad _ => none
  | .adlPush _ => none
  | .adlRead => none
  | .decStart => none

/-- Two states that agree on everything a run may depend on and on everything it has produced: the run's registers, the
stream, and in a normal run the output so far. The rest of `IN` and of `OUT`, the checksum and the host's side may
differ. -/
def sameRun (s t : State) : Prop :=
  s.inputs = [] ∧ t.inputs = [] ∧ s.st = t.st ∧ s.ip = t.ip ∧ s.op = t.op ∧ s.first = t.first ∧ s.lv2 = t.lv2 ∧
  s.inLen = t.inLen ∧ s.outCap = t.outCap ∧ s.mode = t.mode ∧ s.outLen = t.outLen ∧ s.errCode = t.errCode ∧
  s.errIp = t.errIp ∧ s.errOp = t.errOp ∧ (∀ a, a < s.inLen.toNat → inByte s a = inByte t a) ∧
  (s.mode = false → ∀ a, a < s.op.toNat → outByte s a = outByte t a)

/-- Two states that agree on every register of a run but `MODE` (R180). -/
def sameRegisters (s t : State) : Prop :=
  s.st = t.st ∧ s.ip = t.ip ∧ s.op = t.op ∧ s.first = t.first ∧ s.lv2 = t.lv2 ∧ s.outLen = t.outLen ∧
  s.errCode = t.errCode ∧ s.errIp = t.errIp ∧ s.errOp = t.errOp

/-- The registers after RESET (R27, R240). -/
def resetRegisters (t : State) : Prop :=
  t.s1 = 1 ∧ t.s2 = 0 ∧ t.st = .idle ∧ t.ip = 0 ∧ t.op = 0 ∧ t.first = false ∧ t.lv2 = false ∧ t.mode = false ∧
  t.inLen = 0 ∧ t.outCap = 0 ∧ t.outLen = 0 ∧ t.errCode = .none ∧ t.errIp = 0 ∧ t.errOp = 0

end Sys2Proof.Claim

open Sys2Proof Sys2Proof.Machine Sys2Proof.Claim

/-! ## The checksum unit -/

/-- R92: `ADL_LOAD` is the host write of register 0, bits above 31 ignored; it loads both halves raw and changes nothing
else; every state and value. -/
def Obligations.AdlLoadTakesBothHalvesRaw : Prop :=
  (∀ w : Word, decodeHost (.writeReg .adlSum w) = some (.adlLoad (BitVec.ofNat 32 w.toNat))) ∧
  ∀ (v : BitVec 32) (s : State), ∃ t, exec (.adlLoad v) s = .next t ∧
    t.s1.toNat = v.toNat % 65536 ∧ t.s2.toNat = v.toNat / 65536 ∧ t = { s with s1 := t.s1, s2 := t.s2 }

/-- R93: `ADL_PUSH` is the host write of register 1, its low 8 bits; it adds the byte to `S1`, then the new `S1` to
`S2`, both modulo 65521, and changes nothing else. The recurrences are the spec's "from general knowledge" (R91, G1),
log 14. -/
def Obligations.AdlPushAddsByteThenNewSum : Prop :=
  (∀ w : Word, decodeHost (.writeReg .adlData w) = some (.adlPush (BitVec.ofNat 8 w.toNat))) ∧
  ∀ (b : Byte) (s : State), ∃ t, exec (.adlPush b) s = .next t ∧
    t.s1.toNat = (s.s1.toNat + b.toNat) % 65521 ∧ t.s2.toNat = (s.s2.toNat + t.s1.toNat) % 65521 ∧
    t.s1.toNat < 65521 ∧ t.s2.toNat < 65521 ∧ t = { s with s1 := t.s1, s2 := t.s2 }

/-- R94: `ADL_READ` answers `(S2 << 16) + S1` to the host and changes nothing of the block. That the answer stands in
`hostRd` is the model's choice (log 4). -/
def Obligations.AdlReadAnswersBothSums : Prop :=
  ∀ s : State, ∃ t, exec .adlRead s = .next t ∧ t.hostRd.toNat = s.s2.toNat * 65536 + s.s1.toNat ∧
    t = { s with hostRd := t.hostRd }

/-- R95: the command sequence of R95 computes the function `adler32`, from any state, and changes only the sums and the
host's read value (log 4). -/
def Obligations.AdlerCommandsComputeTheFunction : Prop :=
  ∀ (c : BitVec 32) (data : List Byte) (s : State), ∃ t, execAll (adlerCommands c data) s = .next t ∧
    t.hostRd.toNat = (adler32 c data).toNat ∧ t = { s with s1 := t.s1, s2 := t.s2, hostRd := t.hostRd }

/-- R96: with no data the checksum is the seed, canonical or not. -/
def Obligations.AdlerOfNothingIsTheSeed : Prop := ∀ c : BitVec 32, adler32 c [] = c

/-- R98a: checksums concatenate. -/
def Obligations.AdlerConcatenates : Prop :=
  ∀ (c : BitVec 32) (x y : List Byte), adler32 (adler32 c x) y = adler32 c (x ++ y)

/-- R91: the closed form from the seed 1: `S1` is one plus the sum of the bytes, `S2` weights the `i`-th of `n` bytes by
`n - i` and adds `n`. It rests on the spec's "from general knowledge" (R91, G1), log 14. -/
def Obligations.AdlerClosedFormFromSeedOne : Prop :=
  ∀ data : List Byte,
    (adler32 1 data).toNat % 65536 = (1 + (data.map BitVec.toNat).sum) % 65521 ∧
    (adler32 1 data).toNat / 65536 =
      (data.length + ((List.range data.length).map fun i => (data.length - i) * (data.getD i 0).toNat).sum) % 65521

/-- R97: reducing once per batch of at most 5552 bytes, in 32-bit accumulators, gives the sums of byte-by-byte
reduction, for any way of cutting the data into such batches, from reduced sums. -/
def Obligations.DeferredReductionIsInvisible : Prop :=
  ∀ (p : Half × Half) (batches : List (List Byte)), p.1.toNat < 65521 → p.2.toNat < 65521 →
    (∀ b ∈ batches, b.length ≤ Config.adlerNmax) →
    batches.foldl adlerBatch p = adlerFold p batches.flatten

/-- R99: for data that is not empty, a seed with a half of 65521 or more counts as its halves modulo 65521; for no
data it comes back as it is. -/
def Obligations.NonCanonicalSeedCountsReduced : Prop :=
  (∀ c : BitVec 32, adler32 c [] = c) ∧
  ∀ (c d : BitVec 32) (data : List Byte), data ≠ [] → d.toNat % 65536 = c.toNat % 65536 % 65521 →
    d.toNat / 65536 = c.toNat / 65536 % 65521 → adler32 c data = adler32 d data

/-! ## Starting a run -/

/-- R111: `DEC_START` is a host write of register 2 with bit 0 set. In every state: ignored while `BUSY`; else the
per-run registers are cleared, and the start ends in `ERROR` with `ERR_PARAM`, in `DONE` on an empty stream, or begins
the run. `IN`, `OUT`, the lengths, `MODE` and the sums stay. -/
def Obligations.DecStartBeginsOrEndsARun : Prop :=
  (∀ w : Word, w.toNat % 2 = 1 → decodeHost (.writeReg .decCmd w) = some .decStart) ∧
  ∀ s : State,
    (s.st = .busy → exec .decStart s = .next s) ∧
    (s.st ≠ .busy → ∃ t, exec .decStart s = .next t ∧
      t.ip = 0 ∧ t.op = 0 ∧ t.first = true ∧ t.lv2 = false ∧ t.outLen = 0 ∧ t.errIp = 0 ∧ t.errOp = 0 ∧
      (s.inLen.toNat > Config.params.inMax ∨ s.outCap.toNat > Config.params.outMax →
        t.st = .error ∧ t.errCode = .param) ∧
      (s.inLen.toNat ≤ Config.params.inMax → s.outCap.toNat ≤ Config.params.outMax →
        t.errCode = .none ∧ (s.inLen = 0 → t.st = .done) ∧ (s.inLen ≠ 0 → t.st = .busy)) ∧
      t = { s with
        ip := t.ip, op := t.op, first := t.first, lv2 := t.lv2, outLen := t.outLen, errCode := t.errCode,
        errIp := t.errIp, errOp := t.errOp, st := t.st, runs := t.runs, outExtent := t.outExtent })

/-! ## Opcodes -/

/-- R131: a literal run is the tag `000xxxxx` and `x + 1` bytes, in both levels; it copies its bytes, or raises
`ERR_IN_UNDERRUN` before `ERR_OUT_OVERFLOW`. -/
def Obligations.LitCopiesItsBytesOrRaises : Prop :=
  (∀ (d : Dialect) (x : BitVec 5) (lits rest : List Byte), d ≠ .first → lits.length = x.toNat + 1 →
    decode d (((0 : BitVec 3) ++ x : Byte) :: (lits ++ rest)) = .instr (.lit lits) rest) ∧
  ∀ (lits : List Byte) (s : State),
    (s.ip.toNat + 1 + lits.length ≤ s.inLen.toNat → s.op.toNat + lits.length ≤ s.outCap.toNat →
      ∃ t, exec (.lit lits) s = .next t ∧ literalDone lits s t) ∧
    (s.inLen.toNat < s.ip.toNat + 1 + lits.length → exec (.lit lits) s = .next (raised .inUnderrun s)) ∧
    (s.ip.toNat + 1 + lits.length ≤ s.inLen.toNat → s.outCap.toNat < s.op.toNat + lits.length →
      exec (.lit lits) s = .next (raised .outOverflow s))

/-- R114: the first byte's bits 7:5 are the marker, its bits 4:0 the count of a literal run. `HDR` raises `ERR_LEVEL`
for a marker of 2 or more, before anything else and with `FIRST` and `LV2` untouched; else it sets the level, clears
`FIRST`, and does exactly what `LIT` does in the state so changed. -/
def Obligations.HdrSetsTheLevelThenRunsAsLit : Prop :=
  (∀ (m : BitVec 3) (x : BitVec 5) (lits rest : List Byte), m.toNat < 2 → lits.length = x.toNat + 1 →
    decode .first ((m ++ x : Byte) :: (lits ++ rest)) = .instr (.hdr m lits) rest) ∧
  (∀ (m : BitVec 3) (x : BitVec 5) (bs : List Byte) (s : State), m.toNat ≥ 2 → decMoves s → s.first = true →
    restOfStream s = (m ++ x : Byte) :: bs → step s = .next (raised .level s)) ∧
  ∀ (m : BitVec 3) (lits : List Byte) (s : State),
    (m.toNat ≥ 2 → exec (.hdr m lits) s = .next (raised .level s)) ∧
    (m.toNat = 0 → exec (.hdr m lits) s = exec (.lit lits) { s with lv2 := false, first := false }) ∧
    (m.toNat = 1 → exec (.hdr m lits) s = exec (.lit lits) { s with lv2 := true, first := false })

/-- R114 with R131: `HDR` with a legal marker completes where its literal bytes exist and fit. -/
def Obligations.HdrCompletes : Prop :=
  ∀ (m : BitVec 3) (lits : List Byte) (s : State), m.toNat < 2 →
    s.ip.toNat + 1 + lits.length ≤ s.inLen.toNat → s.op.toNat + lits.length ≤ s.outCap.toNat →
    ∃ t, exec (.hdr m lits) s = .next t ∧ t.first = false ∧ (t.lv2 = true ↔ m.toNat = 1) ∧
      literalDone lits { s with lv2 := t.lv2, first := t.first } t

/-- R141: the encoding, then the whole effect. -/
def Obligations.M1sCopiesOrRaises : Prop :=
  (∀ (l : BitVec 3) (hi : BitVec 5) (lo : Byte) (rest : List Byte), l ≠ 0 → l ≠ 7 →
    decode .level1 ((l ++ hi : Byte) :: lo :: rest) = .instr (.m1s l hi lo) rest) ∧
  ∀ (l : BitVec 3) (hi : BitVec 5) (lo : Byte),
    matchRule (.m1s l hi lo) 1 (l.toNat + 2) (hi.toNat * 256 + lo.toNat + 1)

/-- R142: the encoding, then the whole effect. -/
def Obligations.M1lCopiesOrRaises : Prop :=
  (∀ (hi : BitVec 5) (ext lo : Byte) (rest : List Byte),
    decode .level1 (((7 : BitVec 3) ++ hi : Byte) :: ext :: lo :: rest) = .instr (.m1l hi ext lo) rest) ∧
  ∀ (hi : BitVec 5) (ext lo : Byte),
    matchRule (.m1l hi ext lo) 2 (ext.toNat + 9) (hi.toNat * 256 + lo.toNat + 1)

/-- R155: the encoding, then the whole effect. -/
def Obligations.M2nsCopiesOrRaises : Prop :=
  (∀ (l : BitVec 3) (hi : BitVec 5) (lo : Byte) (rest : List Byte), l ≠ 0 → l ≠ 7 → ¬ (hi = 31 ∧ lo = 255) →
    decode .level2 ((l ++ hi : Byte) :: lo :: rest) = .instr (.m2ns l hi lo) rest) ∧
  ∀ (l : BitVec 3) (hi : BitVec 5) (lo : Byte),
    matchRule (.m2ns l hi lo) 1 (l.toNat + 2) (hi.toNat * 256 + lo.toNat + 1)

/-- R156: the encoding, then the whole effect. -/
def Obligations.M2nlCopiesOrRaises : Prop :=
  (∀ (hi : BitVec 5) (k : Nat) (c lo : Byte) (rest : List Byte), c ≠ 255 → ¬ (hi = 31 ∧ lo = 255) →
    decode .level2 (((7 : BitVec 3) ++ hi : Byte) :: (List.replicate k 255 ++ c :: lo :: rest)) =
      .instr (.m2nl hi k c lo) rest) ∧
  ∀ (hi : BitVec 5) (k : Nat) (c lo : Byte),
    matchRule (.m2nl hi k c lo) (k + 2) (255 * k + c.toNat + 9) (hi.toNat * 256 + lo.toNat + 1)

/-- R157: the encoding, then the whole effect. -/
def Obligations.M2fsCopiesOrRaises : Prop :=
  (∀ (l : BitVec 3) (exhi exlo : Byte) (rest : List Byte), l ≠ 0 → l ≠ 7 →
    decode .level2 ((l ++ (31 : BitVec 5) : Byte) :: 255 :: exhi :: exlo :: rest) = .instr (.m2fs l exhi exlo) rest) ∧
  ∀ (l : BitVec 3) (exhi exlo : Byte),
    matchRule (.m2fs l exhi exlo) 3 (l.toNat + 2) (exhi.toNat * 256 + exlo.toNat + 8192)

/-- R158: the encoding, then the whole effect. -/
def Obligations.M2flCopiesOrRaises : Prop :=
  (∀ (k : Nat) (c exhi exlo : Byte) (rest : List Byte), c ≠ 255 →
    decode .level2 (255 :: (List.replicate k 255 ++ c :: 255 :: exhi :: exlo :: rest)) =
      .instr (.m2fl k c exhi exlo) rest) ∧
  ∀ (k : Nat) (c exhi exlo : Byte),
    matchRule (.m2fl k c exhi exlo) (k + 4) (255 * k + c.toNat + 9) (exhi.toNat * 256 + exlo.toNat + 8192)

/-! ## The step -/

/-- R112: while DEC runs and has the turn, a step decodes `IN[IP .. IN_LEN-1]` in the dialect of `FIRST` and `LV2`,
executes that one opcode, and applies the stop rule. -/
def Obligations.StepRunsTheDecodedOpcode : Prop :=
  ∀ (s t : State) (d : Dialect) (i : Instr) (rest : List Byte), decMoves s → dialectIs s d →
    decode d (restOfStream s) = .instr i rest → exec i s = .next t → step s = .next (afterStopRule t)

/-- R10, R51: a turn of DEC that is listed, so that it stands between host operations, does in every state, `BUSY` or
not, what the step with no turn listed does, and the turns after it stay. Through this the statements about a step of
DEC hold of every interleaving. That turns are listed in `inputs` is the model's choice (log 5). -/
def Obligations.ListedTurnOfDecIsItsStep : Prop :=
  ∀ (s : State) (rest : List Input), s.inputs = .dec :: rest →
    ∃ t, step { s with inputs := [] } = .next t ∧ t.inputs = [] ∧ step s = .next { t with inputs := rest }

/-- R21: a host write of `ADL_SUM`, `ADL_DATA` or `DEC_CMD` with bit 0 set and a host read of `ADL_SUM` are the four
host commands; a step runs the command, and the written value's bits above the register do not count. -/
def Obligations.StepRunsTheHostCommand : Prop :=
  ∀ (s : State) (rest : List Input) (v : Word),
    (s.inputs = .host (.writeReg .adlSum v) :: rest →
      step s = exec (.adlLoad (BitVec.ofNat 32 v.toNat)) { s with inputs := rest }) ∧
    (s.inputs = .host (.writeReg .adlData v) :: rest →
      step s = exec (.adlPush (BitVec.ofNat 8 v.toNat)) { s with inputs := rest }) ∧
    (s.inputs = .host (.writeReg .decCmd v) :: rest → v.toNat % 2 = 1 →
      step s = exec .decStart { s with inputs := rest }) ∧
    (s.inputs = .host (.readReg .adlSum) :: rest → step s = exec .adlRead { s with inputs := rest })

/-- R67: a first byte of `0x40` or more raises `ERR_LEVEL`, whatever follows it, with `FIRST` and `LV2` as they were.
Nothing else is illegal by encoding: any other bytes are an opcode, or the beginning of one. -/
def Obligations.OnlyTheLevelMarkerIsIllegal : Prop :=
  (∀ s : State, decMoves s → s.first = true → s.ip.toNat < s.inLen.toNat → (inByte s s.ip.toNat).toNat ≥ 64 →
    step s = .next (raised .level s)) ∧
  ∀ (d : Dialect) (t : Byte) (bs : List Byte), (d = .first → t.toNat < 64) →
    ∃ more i rest, decode d (t :: bs ++ more) = .instr i rest

/-- R171, R172, R215: where the stream ends inside an opcode that is not the first, whatever the opcode and however
many of its bytes are there, the step raises `ERR_IN_UNDERRUN`. -/
def Obligations.CutOffOpcodeRaisesUnderrun : Prop :=
  ∀ (s : State) (d : Dialect) (i : Instr) (missing : List Byte), decMoves s → dialectIs s d → d ≠ .first →
    i.wf = true → i.fits d = true → restOfStream s ≠ [] → missing ≠ [] → restOfStream s ++ missing = encode i →
    step s = .next (raised .inUnderrun s)

/-- R211, R215: where the stream ends inside its first opcode, the error is `ERR_IN_UNDERRUN` and the level is already
set. -/
def Obligations.CutOffFirstOpcodeRaisesUnderrun : Prop :=
  ∀ (s : State) (m : BitVec 3) (lits missing : List Byte), decMoves s → s.first = true →
    (Instr.hdr m lits).wf = true → restOfStream s ≠ [] → missing ≠ [] →
    restOfStream s ++ missing = encode (.hdr m lits) →
    step s = .next (raised .inUnderrun { s with first := false, lv2 := decide (m.toNat = 1) })

/-- R234, R216: outside `BUSY` DEC does nothing. That such a step is an unchanged state is the model's choice (log 7).
-/
def Obligations.NothingHappensOutsideBusy : Prop :=
  ∀ s : State, s.inputs = [] → s.st ≠ .busy → step s = .next s

/-- R215, R211: a step that raises has written no byte of `OUT` and moved no cursor; it has recorded the opcode's tag
and `OP`, and `OUT_LEN` is 0. `FIRST` and `LV2` are as they were after `ERR_LEVEL`; after any other error the level is
known. Nothing else has changed. -/
def Obligations.ErrorsArePrecise : Prop :=
  ∀ s t : State, decMoves s → step s = .next t → t.st = .error →
    t = { s with
      st := .error, errCode := t.errCode, errIp := s.ip, errOp := s.op, outLen := 0, first := t.first, lv2 := t.lv2 } ∧
    ((t.errCode = .level ∧ t.first = s.first ∧ t.lv2 = s.lv2) ∨
      ((t.errCode = .inUnderrun ∨ t.errCode = .outOverflow ∨ t.errCode = .badRef) ∧
        (s.first = false → t.first = false ∧ t.lv2 = s.lv2) ∧
        (s.first = true → s.ip.toNat < s.inLen.toNat →
          t.first = false ∧ t.lv2 = decide (32 ≤ (inByte s s.ip.toNat).toNat))))

/-- R118, R182, R183: an opcode that completes takes at least two stream bytes and stays in the stream, produces at
least one byte and stays within the capacity, and rewrites no byte below `OP`. -/
def Obligations.StepsMoveForward : Prop :=
  ∀ s t : State, decMoves s → step s = .next t → t.st ≠ .error →
    s.ip.toNat + 2 ≤ t.ip.toNat ∧ t.ip.toNat ≤ s.inLen.toNat ∧ s.op.toNat + 1 ≤ t.op.toNat ∧
    t.op.toNat ≤ s.outCap.toNat ∧ ∀ a, a < s.op.toNat → outByte t a = outByte s a

/-- R121: a stream can affect only `IP`, `OP`, `FIRST`, `LV2`, `OUT`, and by ending or failing `STATE`, `OUT_LEN` and
the error registers; never the sums, the lengths, `MODE`, `IN` or anything of the host's. -/
def Obligations.StreamTouchesOnlyRunState : Prop :=
  ∀ s t : State, s.inputs = [] → step s = .next t →
    t = { s with
      ip := t.ip, op := t.op, first := t.first, lv2 := t.lv2, outBuf := t.outBuf, outExtent := t.outExtent,
      st := t.st, outLen := t.outLen, errCode := t.errCode, errIp := t.errIp, errOp := t.errOp }

/-! ## Whole-machine rules -/

/-- R17: the transitions of `STATE`. RESET gives `IDLE`. While `BUSY` a host operation leaves `STATE` as it is, and a
turn of DEC stays `BUSY` or ends in `DONE` or `ERROR`. Outside `BUSY`, `DEC_START` leads to `BUSY`, `DONE` or `ERROR`,
and no other turn but RESET changes `STATE`. -/
def Obligations.OnlyTheseTransitionsOfState : Prop :=
  ∀ (s t : State), step s = .next t →
    (resetComes s → t.st = .idle) ∧
    (¬ resetComes s →
      (s.st = .busy → hostComes s → t.st = .busy) ∧
      (s.st = .busy → ¬ hostComes s → t.st = .busy ∨ t.st = .done ∨ t.st = .error) ∧
      (s.st ≠ .busy → startComes s → t.st = .busy ∨ t.st = .done ∨ t.st = .error) ∧
      (s.st ≠ .busy → ¬ startComes s → t.st = s.st))

/-- R216: `ERROR` and the error registers hold until the next `DEC_START` (a host write of `DEC_CMD` with bit 0 set) or
RESET. -/
def Obligations.ErrorHoldsUntilStartOrReset : Prop :=
  ∀ (s t : State), s.st = .error → step s = .next t → ¬ resetComes s → ¬ startComes s →
    t.st = .error ∧ t.errCode = s.errCode ∧ t.errIp = s.errIp ∧ t.errOp = s.errOp ∧ t.outLen = s.outLen ∧
    t.ip = s.ip ∧ t.op = s.op

/-- R46, R51: when a normal run has ended in `DONE`, a host read of each of the `OUT_LEN` bytes returns what the run
left there. -/
def Obligations.DoneOutputIsReadable : Prop :=
  ∀ (p : Config.Params) (s t : State) (a : Nat), s.Inv p → decMoves s → s.mode = false → step s = .next t →
    t.st = .done → a < t.outLen.toNat → a < p.outMax ∧ readOutWindow p t a = outByte t a

/-- R182, R183, R13, R14, R18, R19: every step keeps the invariant of the machine. -/
def Obligations.EveryStepKeepsTheInvariant : Prop :=
  ∀ s t : State, s.Inv Config.params → step s = .next t → t.Inv Config.params

/-- R27: the invariant holds after reset. -/
def Obligations.ResetMeetsTheInvariant : Prop := ∀ p : Config.Params, State.reset.Inv p

/-- R118: from every running state that meets the invariant, at most `ceil((IN_LEN - IP) / 2)` steps of DEC end the
run, in `DONE` or `ERROR`. -/
def Obligations.EveryRunEnds : Prop :=
  ∀ (p : Config.Params) (s : State), s.Inv p → decMoves s →
    ∃ (n : Nat) (t : State), n ≤ (s.inLen.toNat - s.ip.toNat + 1) / 2 ∧ Sys2Proof.core.run n s = .next t ∧
      (t.st = .done ∨ t.st = .error)

/-- R120, R183, U8: a run does not depend on what `OUT` held before it, on `IN` at or beyond `IN_LEN`, or on anything
outside DEC: states that agree on the run agree on it after any number of steps, output included. -/
def Obligations.RunDependsOnlyOnItsStream : Prop :=
  ∀ (n : Nat) (s t s' t' : State), sameRun s t → Sys2Proof.core.run n s = .next s' →
    Sys2Proof.core.run n t = .next t' → sameRun s' t'

/-- R180: a validate-only run and a normal run of the same stream have the same registers after any number of steps, and
the validate-only run changes no byte of `OUT`. -/
def Obligations.ValidateOnlyRunAgrees : Prop :=
  ∀ (n : Nat) (s t s' t' : State), s.inputs = [] → t = { s with mode := true } → s.mode = false →
    Sys2Proof.core.run n s = .next s' → Sys2Proof.core.run n t = .next t' →
    sameRegisters s' t' ∧ t'.outBuf = t.outBuf

/-- R184: a larger capacity keeps a valid stream valid, with the same output. -/
def Obligations.LargerCapacityKeepsValidity : Prop :=
  ∀ (bs : List Byte) (cap cap' : Word) (vonly : Bool) (n : Nat) (out : List Byte),
    decodeStream bs cap vonly = .done n out → cap.toNat ≤ cap'.toNat → decodeStream bs cap' vonly = .done n out

/-- R184: the decoded length itself is capacity enough. -/
def Obligations.DecodedLengthIsCapacityEnough : Prop :=
  ∀ (bs : List Byte) (cap : Word) (vonly : Bool) (n : Nat) (out : List Byte),
    decodeStream bs cap vonly = .done n out → decodeStream bs (toWord n) vonly = .done n out

/-- R199: every canonical stream, of both levels, decodes to the data it stands for. -/
def Obligations.CanonicalStreamsRoundTrip : Prop :=
  ∀ (lv2 : Bool) (items : List LzItem) (cap : Word), itemsOk lv2 0 items = true →
    (canonicalStream lv2 items).length < 2 ^ 64 → (lzExpand items).length ≤ cap.toNat →
    decodeStream (canonicalStream lv2 items) cap false = .done (lzExpand items).length (lzExpand items)

/-! ## Encoding -/

/-- R62, R66: decoding the bytes of a well-formed opcode, in a dialect that has it, gives it back with every operand,
and leaves what follows. -/
def Obligations.DecodeOfEncodeIsTheInstruction : Prop :=
  ∀ (d : Dialect) (i : Instr) (rest : List Byte), i.wf = true → i.fits d = true →
    decode d (encode i ++ rest) = .instr i rest

/-- R65, R66: what decodes is well formed, exists in the dialect, and is spelled by exactly the bytes it was read
from. -/
def Obligations.EncodeOfDecodeIsTheBytes : Prop :=
  ∀ (d : Dialect) (bs rest : List Byte) (i : Instr), decode d bs = .instr i rest →
    i.wf = true ∧ i.fits d = true ∧ encode i ++ rest = bs

/-- R69: a host command is issued by one host operation, and that operation is read as the command. -/
def Obligations.HostCommandsDecode : Prop :=
  ∀ i : Instr,
    (encodeHost i = none ↔ ∃ d, i.fits d = true) ∧ ∀ h, encodeHost i = some h → decodeHost h = some i

/-- R62, R64: words written out from the format table. -/
def Obligations.FormatTableWordsDecode : Prop :=
  decode .first [0b00100010, 0x61, 0x62, 0x63] = .instr (.hdr 1 [0x61, 0x62, 0x63]) [] ∧
  decode .level1 [0b00000001, 0xFF, 0x20, 7] = .instr (.lit [0xFF, 0x20]) [7] ∧
  decode .level1 [0b10000000, 2] = .instr (.m1s 4 0 2) [] ∧
  decode .level1 [0b11100001, 11, 5] = .instr (.m1l 1 11 5) [] ∧
  decode .level2 [0b00111111, 254] = .instr (.m2ns 1 31 254) [] ∧
  decode .level2 [0b11100000, 255, 255, 5, 0] = .instr (.m2nl 0 2 5 0) [] ∧
  decode .level2 [0b11011111, 255, 1, 2] = .instr (.m2fs 6 1 2) [] ∧
  decode .level2 [0b11111111, 255, 0, 255, 0, 3] = .instr (.m2fl 1 0 0 3) []

/-- R65: the opcode map by tag value, in both levels and for the first byte. -/
def Obligations.OpcodeMapByTag : Prop :=
  ∀ (t : Byte) (bs rest : List Byte) (i : Instr),
    (decode .level1 (t :: bs) = .instr i rest →
      (t.toNat < 0x20 → ∃ lits, i = .lit lits) ∧
      (0x20 ≤ t.toNat → t.toNat < 0xE0 → ∃ l hi lo, i = .m1s l hi lo ∧
        (t.toNat % 32 = 31 → bs.head? = some 255 → lengthAndDistance i = some (l.toNat + 2, 8192))) ∧
      (0xE0 ≤ t.toNat → ∃ hi ext lo, i = .m1l hi ext lo)) ∧
    (decode .level2 (t :: bs) = .instr i rest →
      (t.toNat < 0x20 → ∃ lits, i = .lit lits) ∧
      (0x20 ≤ t.toNat → t.toNat < 0xE0 →
        (t.toNat % 32 = 31 ∧ bs.head? = some 255 → ∃ l exhi exlo, i = .m2fs l exhi exlo) ∧
        (¬ (t.toNat % 32 = 31 ∧ bs.head? = some 255) → ∃ l hi lo, i = .m2ns l hi lo)) ∧
      (0xE0 ≤ t.toNat → ∃ k c lo after, c ≠ 255 ∧ bs = List.replicate k 255 ++ c :: lo :: after ∧
        (t.toNat = 255 ∧ lo = 255 → ∃ exhi exlo, i = .m2fl k c exhi exlo) ∧
        (¬ (t.toNat = 255 ∧ lo = 255) → ∃ hi, i = .m2nl hi k c lo))) ∧
    (decode .first (t :: bs) = .instr i rest →
      (t.toNat < 0x20 → ∃ lits, i = .hdr 0 lits ∧ lits.length = t.toNat % 32 + 1) ∧
      (0x20 ≤ t.toNat → t.toNat < 0x40 ∧ ∃ lits, i = .hdr 1 lits ∧ lits.length = t.toNat % 32 + 1))

/-- R159d: in level 2 every length from 3 and every distance 1..73727 has exactly one spelling. -/
def Obligations.EveryLevelTwoMatchHasOneSpelling : Prop :=
  ∀ len dist : Nat, 3 ≤ len → 1 ≤ dist → dist ≤ 73727 →
    ∃ i : Instr, (i.wf = true ∧ i.fits .level2 = true ∧ lengthAndDistance i = some (len, dist)) ∧
      ∀ j : Instr, j.wf = true → j.fits .level2 = true → lengthAndDistance j = some (len, dist) → j = i

/-- R143: in level 1 every length 3..264 and every distance 1..8192 has exactly one spelling. -/
def Obligations.EveryLevelOneMatchHasOneSpelling : Prop :=
  ∀ len dist : Nat, 3 ≤ len → len ≤ 264 → 1 ≤ dist → dist ≤ 8192 →
    ∃ i : Instr, (i.wf = true ∧ i.fits .level1 = true ∧ lengthAndDistance i = some (len, dist)) ∧
      ∀ j : Instr, j.wf = true → j.fits .level1 = true → lengthAndDistance j = some (len, dist) → j = i

/-- R196: the emission of a level-2 match is the encoding of the instruction with that length and distance. -/
def Obligations.LevelTwoEmissionIsTheEncoding : Prop :=
  ∀ (len dist : Nat) (i : Instr), 3 ≤ len → 1 ≤ dist → dist ≤ 73727 → i.wf = true → i.fits .level2 = true →
    lengthAndDistance i = some (len, dist) → emitMatch2 len dist = encode i

/-! ## The host's side -/

/-- R21, R22: what a host read of each register returns, and that it changes nothing of the block. That the value
stands in `hostRd` is the model's choice (log 4). -/
def Obligations.RegisterReadsReturnTheTable : Prop :=
  ∀ (s : State) (r : HostReg) (rest : List Input), s.inputs = .host (.readReg r) :: rest →
    ∃ t, step s = .next t ∧ t.hostRd.toNat = registerReads s r ∧ t = { s with inputs := rest, hostRd := t.hostRd }

/-- R21, R19, R20: outside `BUSY` a host write loads `MODE` (bit 0 only, and 0 without the mode), `IN_LEN` and
`OUT_CAP`. -/
def Obligations.RegisterWritesLoad : Prop :=
  ∀ (s : State) (v : Word) (rest : List Input), s.st ≠ .busy →
    (s.inputs = .host (.writeReg .decMode v) :: rest →
      step s = .next { s with inputs := rest, mode := decide (v.toNat % 2 = 1) && Config.params.hasVonly }) ∧
    (s.inputs = .host (.writeReg .decInLen v) :: rest → step s = .next { s with inputs := rest, inLen := v }) ∧
    (s.inputs = .host (.writeReg .decOutCap v) :: rest → step s = .next { s with inputs := rest, outCap := v })

/-- R247: while `BUSY` a write of `IN`, of the loaders and of `DEC_CMD` has no effect at all. -/
def Obligations.BusyGateIgnoresWrites : Prop :=
  ∀ (s : State) (h : HostOp) (rest : List Input), s.st = .busy → s.inputs = .host h :: rest →
    ((∃ a b, h = .writeIn a b) ∨ (∃ v, h = .writeReg .decInLen v) ∨ (∃ v, h = .writeReg .decOutCap v) ∨
      (∃ v, h = .writeReg .decMode v) ∨ (∃ v, h = .writeReg .decCmd v)) →
    step s = .next { s with inputs := rest }

/-- R21: in every state a write of a read-only register or of the `OUT` window, and a write of `DEC_CMD` with bit 0
clear, does nothing. -/
def Obligations.ReadOnlyWritesDoNothing : Prop :=
  ∀ (s : State) (h : HostOp) (rest : List Input), s.inputs = .host h :: rest →
    ((∃ a b, h = .writeOut a b) ∨ (∃ v, h = .writeReg .decCmd v ∧ v.toNat % 2 = 0) ∨
      ∃ r v, h = .writeReg r v ∧
        (r = .decStatus ∨ r = .decOutLen ∨ r = .decErrIp ∨ r = .decErrOp ∨ r = .decIp ∨ r = .decOp)) →
    step s = .next { s with inputs := rest }

/-- R21: outside `BUSY` a host write to `IN` below `IN_MAX` stores that byte and no other; at or beyond it, nothing. -/
def Obligations.InWindowWritesOneByte : Prop :=
  ∀ (s : State) (a : Nat) (b : Byte) (rest : List Input), s.st ≠ .busy → s.inputs = .host (.writeIn a b) :: rest →
    (a < Config.params.inMax → ∃ t, step s = .next t ∧ inByte t a = b ∧ (∀ x, x ≠ a → inByte t x = inByte s x) ∧
      t = { s with inputs := rest, inBuf := t.inBuf }) ∧
    (Config.params.inMax ≤ a → step s = .next { s with inputs := rest })

/-- R21: a host read of the `IN` window returns `IN[a]`, and 0 at or beyond `IN_MAX`. Nothing of the block changes. -/
def Obligations.InWindowReadsTheBuffer : Prop :=
  ∀ (s : State) (a : Nat) (rest : List Input), s.inputs = .host (.readIn a) :: rest →
    ∃ t, step s = .next t ∧ (a < Config.params.inMax → t.hostRd.toNat = (inByte s a).toNat) ∧
      (Config.params.inMax ≤ a → t.hostRd.toNat = 0) ∧ t = { s with inputs := rest, hostRd := t.hostRd }

/-- R21, R46: a host read of the `OUT` window, for any size of the buffer: `OUT[a]` where the current or last run
wrote it, 0 at or beyond `OUT_MAX`. Nothing of the block changes. -/
def Obligations.OutWindowReadsTheOutput : Prop :=
  ∀ (p : Config.Params) (s : State) (a : Nat),
    ∃ t, hostAccess p (.readOut a) s = t ∧
      (a < p.outMax → a < s.outExtent → t.hostRd.toNat = (outByte s a).toNat) ∧
      (p.outMax ≤ a → t.hostRd.toNat = 0) ∧ t = { s with hostRd := t.hostRd }

/-- R21, R54: a host operation that is no command is carried out in one step, with the block's own parameters. -/
def Obligations.StepCarriesOutTheHostAccess : Prop :=
  ∀ (s : State) (h : HostOp) (rest : List Input), s.inputs = .host h :: rest → decodeHost h = none →
    step s = .next (hostAccess Config.params h { s with inputs := rest })

/-- R240: RESET, in any state, puts every register at its reset value. No byte of either buffer is known after it (log
6); the turns still to come stay. -/
def Obligations.ResetFromAnyState : Prop :=
  ∀ (s : State) (rest : List Input), s.inputs = .reset :: rest →
    ∃ t, step s = .next t ∧ resetRegisters t ∧ t.inBuf = [] ∧ t.outBuf = [] ∧ t.outExtent = 0 ∧ t.inputs = rest

/-- R27: the state after reset. -/
def Obligations.ResetStateRegisters : Prop := resetRegisters State.reset
end

