-- ==== Sys2Proof/Laws/Config.lean ====
section
/-! SUPPORT. All that is known of the open parameters (spec/00_scope.md R6). -/

namespace Sys2Proof.Config

theorem inMax_pos : 1 ≤ params.inMax := by simp [params]

theorem inMax_lt : params.inMax < 2 ^ 32 := by
  have := inMaxLessOne.isLt
  simp only [params]; omega

theorem outMax_lt : params.outMax < 2 ^ 32 := outMaxBits.isLt

/-- The largest level-2 far distance and the longest level-1 match, as R5 derives them. -/
theorem derived_constants : 65535 + maxL2Distance + 1 = maxFarDistance ∧ 6 + 255 + 3 = maxLen := by decide

end Sys2Proof.Config
end

