-- ==== Sys2Proof/Laws/Memory.lean ====
section
/-! SUPPORT. The laws of the buffers: what a read gives after a write, a run of writes or a match copy, and that all of
them keep the canonical form. -/

namespace Sys2Proof.Machine

/-! ### One byte -/

@[simp] theorem lookup_write_same (m : Memory) (a : Nat) (b : Byte) : (m.write a b).lookup a = some b := by
  induction m with
  | nil => simp [Memory.write, Memory.lookup]
  | cons c m ih =>
    obtain ⟨k, v⟩ := c
    simp only [Memory.write]
    split
    · simp [Memory.lookup]
    · split
      · simp [Memory.lookup]
      · rename_i h; simp [Memory.lookup, h, ih]

theorem lookup_write_of_ne (m : Memory) {a x : Nat} (b : Byte) (h : x ≠ a) :
    (m.write a b).lookup x = m.lookup x := by
  induction m with
  | nil => simp [Memory.write, Memory.lookup, h]
  | cons c m ih =>
    obtain ⟨k, v⟩ := c
    simp only [Memory.write]
    split
    · simp [Memory.lookup, h]
    · split
      · rename_i e; subst e; simp [Memory.lookup, h]
      · simp only [Memory.lookup]; split <;> simp_all

theorem mem_write {m : Memory} {a : Nat} {b : Byte} {c : Host.Cell} (h : c ∈ m.write a b) :
    c = (a, b) ∨ c ∈ m := by
  induction m with
  | nil => simpa [Memory.write] using h
  | cons x m ih =>
    obtain ⟨k, v⟩ := x
    simp only [Memory.write] at h
    split at h
    · simpa using h
    · split at h
      · simp only [List.mem_cons] at h ⊢; tauto
      · simp only [List.mem_cons] at h ⊢
        rcases h with h | h
        · exact .inr (.inl h)
        · rcases ih h with h | h <;> tauto

theorem write_wf {m : Memory} (h : m.wf) (a : Nat) (b : Byte) : (m.write a b).wf := by
  induction m with
  | nil => simp [Memory.write, Memory.wf]
  | cons x m ih =>
    obtain ⟨k, v⟩ := x
    obtain ⟨hk, hm⟩ := List.pairwise_cons.1 h
    simp only [Memory.write]
    split
    · rename_i hak
      refine List.pairwise_cons.2 ⟨fun c hc => ?_, h⟩
      rcases List.mem_cons.1 hc with rfl | hc
      · exact hak
      · exact Nat.lt_trans hak (hk c hc)
    · split
      · rename_i e; subst e; exact List.pairwise_cons.2 ⟨hk, hm⟩
      · refine List.pairwise_cons.2 ⟨fun c hc => ?_, ih hm⟩
        rcases mem_write hc with rfl | hc
        · simp only; omega
        · exact hk c hc

theorem write_below {m : Memory} {n : Nat} (h : m.below n) {a : Nat} (ha : a < n) (b : Byte) :
    (m.write a b).below n := by
  intro c hc
  rcases mem_write hc with rfl | hc
  · exact ha
  · exact h c hc

/-! ### A run of bytes -/

theorem storeBytes_wf {m : Memory} (h : m.wf) (a : Nat) (bs : List Byte) : (storeBytes m a bs).wf := by
  induction bs generalizing m a with
  | nil => exact h
  | cons b bs ih => exact ih (write_wf h a b) _

theorem mem_storeBytes {m : Memory} {a : Nat} {bs : List Byte} {c : Host.Cell} (h : c ∈ storeBytes m a bs) :
    (a ≤ c.1 ∧ c.1 < a + bs.length) ∨ c ∈ m := by
  induction bs generalizing m a with
  | nil => exact .inr h
  | cons b bs ih =>
    rcases ih h with h | h
    · left; simp only [List.length_cons]; omega
    · rcases mem_write h with rfl | h
      · left; simp
      · exact .inr h

theorem lookup_storeBytes_outside (m : Memory) (a : Nat) (bs : List Byte) {x : Nat}
    (h : x < a ∨ a + bs.length ≤ x) : (storeBytes m a bs).lookup x = m.lookup x := by
  induction bs generalizing m a with
  | nil => rfl
  | cons b bs ih =>
    simp only [List.length_cons] at h
    rw [storeBytes, ih _ _ (by omega), lookup_write_of_ne _ _ (by omega)]

theorem lookup_storeBytes_inside (m : Memory) (a : Nat) (bs : List Byte) {i : Nat} (h : i < bs.length) :
    (storeBytes m a bs).lookup (a + i) = some bs[i] := by
  induction bs generalizing m a i with
  | nil => simp at h
  | cons b bs ih =>
    cases i with
    | zero => rw [storeBytes, lookup_storeBytes_outside _ _ _ (by omega)]; simp
    | succ i =>
      have := ih (m.write a b) (a + 1) (i := i) (by simpa using h)
      rw [storeBytes, show a + (i + 1) = a + 1 + i by omega, this]
      simp

/-! ### The match copy -/

theorem copyForward_wf (era : Nat) {m : Memory} (h : m.wf) (dst src n : Nat) : (copyForward era m dst src n).wf := by
  induction n generalizing m dst src with
  | zero => exact h
  | succ n ih => exact ih (write_wf h _ _) _ _

theorem mem_copyForward {era : Nat} {m : Memory} {dst src n : Nat} {c : Host.Cell}
    (h : c ∈ copyForward era m dst src n) : (dst ≤ c.1 ∧ c.1 < dst + n) ∨ c ∈ m := by
  induction n generalizing m dst src with
  | zero => exact .inr h
  | succ n ih =>
    rcases ih h with h | h
    · left; omega
    · rcases mem_write h with rfl | h
      · left; simp
      · exact .inr h

theorem lookup_copyForward_outside (era : Nat) (m : Memory) (dst src n : Nat) {x : Nat}
    (h : x < dst ∨ dst + n ≤ x) : (copyForward era m dst src n).lookup x = m.lookup x := by
  induction n generalizing m dst src with
  | zero => rfl
  | succ n ih => rw [copyForward, ih _ _ _ (by omega), lookup_write_of_ne _ _ (by omega)]

/-- Every destination byte ends equal to its source byte as that ends (R50): the write of byte `i` comes before the read
of byte `i + 1`, and nothing at or below a source byte is written after it is read. -/
theorem lookup_copyForward_inside (era : Nat) (m : Memory) {dst src : Nat} (n : Nat) (hs : src < dst) {i : Nat}
    (h : i < n) : (copyForward era m dst src n).lookup (dst + i) =
      some (outMemByte era (copyForward era m dst src n) (src + i)) := by
  induction n generalizing m dst src i with
  | zero => omega
  | succ n ih =>
    cases i with
    | zero =>
      simp only [copyForward, Nat.add_zero]
      rw [lookup_copyForward_outside _ _ _ _ _ (by omega), lookup_write_same, outMemByte, outMemByte,
        lookup_copyForward_outside _ _ _ _ _ (by omega), lookup_write_of_ne _ _ (by omega)]
    | succ i =>
      have := ih (m.write dst (outMemByte era m src)) (dst := dst + 1) (src := src + 1) (by omega) (i := i) (by omega)
      rw [copyForward, show dst + (i + 1) = dst + 1 + i by omega, show src + (i + 1) = src + 1 + i by omega, this]

/-- The net effect of a match copy (R140): the `dist` bytes before the destination, repeated. -/
theorem copyForward_cyclic (era : Nat) (m : Memory) {dst dist : Nat} (n : Nat) (h1 : 1 ≤ dist) (h2 : dist ≤ dst)
    {i : Nat} (h : i < n) : outMemByte era (copyForward era m dst (dst - dist) n) (dst + i) =
      outMemByte era m (dst - dist + i % dist) := by
  induction i using Nat.strongRecOn with
  | ind i ih =>
    have step := lookup_copyForward_inside era m n (show dst - dist < dst by omega) h
    rw [outMemByte, step, Option.getD_some]
    by_cases hi : i < dist
    · rw [Nat.mod_eq_of_lt hi, outMemByte, outMemByte, lookup_copyForward_outside _ _ _ _ _ (by omega)]
    · rw [show dst - dist + i = dst + (i - dist) by omega, ih (i - dist) (by omega) (by omega)]
      rw [Nat.mod_eq_sub_mod (by omega : dist ≤ i)]

end Sys2Proof.Machine
end

