-- ==== Sys2Proof/Laws/Operands.lean ====
section
/-! SUPPORT. The assembled operands and words in plain arithmetic (spec/30_encoding.md R64). -/

namespace Sys2Proof.Machine

theorem nearDist_eq (hi : BitVec 5) (lo : Byte) : nearDist hi lo = hi.toNat * 256 + lo.toNat + 1 := by
  simp [nearDist, Nat.shiftLeft_eq]

theorem farDist_eq (exhi exlo : Byte) : farDist exhi exlo = exhi.toNat * 256 + exlo.toNat + 8192 := by
  simp [farDist, Nat.shiftLeft_eq, Config.maxL2Distance]

theorem longLen1_eq (ext : Byte) : longLen1 ext = ext.toNat + 9 := by simp only [longLen1]; omega

theorem longLen2_eq (k : Nat) (c : Byte) : longLen2 k c = 255 * k + c.toNat + 9 := by simp only [longLen2]; omega

/-- A distance of 0 cannot be spelled (R175). -/
theorem nearDist_pos (hi : BitVec 5) (lo : Byte) : 1 ≤ nearDist hi lo := by rw [nearDist_eq]; omega

theorem farDist_pos (exhi exlo : Byte) : 1 ≤ farDist exhi exlo := by rw [farDist_eq]; omega

theorem half_append_toNat (a b : Half) : (a ++ b).toNat = a.toNat * 65536 + b.toNat := by
  rw [BitVec.toNat_append, ← Nat.shiftLeft_add_eq_or_of_lt b.isLt, Nat.shiftLeft_eq]

theorem checksum_toNat (s : State) : (checksum s).toNat = s.s2.toNat * 65536 + s.s1.toNat :=
  half_append_toNat _ _

theorem adlerStep_fst (b : Byte) (s1 s2 : Half) : (adlerStep b s1 s2).1.toNat = (s1.toNat + b.toNat) % 65521 := by
  simp only [adlerStep, Config.adlerMod, BitVec.toNat_ofNat]; omega

theorem adlerStep_snd (b : Byte) (s1 s2 : Half) :
    (adlerStep b s1 s2).2.toNat = (s2.toNat + (s1.toNat + b.toNat) % 65521) % 65521 := by
  simp only [adlerStep, Config.adlerMod, BitVec.toNat_ofNat]; omega

end Sys2Proof.Machine
end

