-- ==== Sys2Proof/Laws/State.lean ====
section
/-! SUPPORT. One lemma per field for each update of the state, so that no later proof unfolds a record update. -/

namespace Sys2Proof.Machine

/-! ### `raiseDecodeError`: the error entry (R215) -/

@[simp] theorem raiseDecodeError_s1 (c : ErrCode) (a : Word) (s : State) : (raiseDecodeError c a s).s1 = s.s1 := rfl
@[simp] theorem raiseDecodeError_s2 (c : ErrCode) (a : Word) (s : State) : (raiseDecodeError c a s).s2 = s.s2 := rfl
@[simp] theorem raiseDecodeError_inLen (c : ErrCode) (a : Word) (s : State) : (raiseDecodeError c a s).inLen = s.inLen := rfl
@[simp] theorem raiseDecodeError_outCap (c : ErrCode) (a : Word) (s : State) : (raiseDecodeError c a s).outCap = s.outCap := rfl
@[simp] theorem raiseDecodeError_mode (c : ErrCode) (a : Word) (s : State) : (raiseDecodeError c a s).mode = s.mode := rfl
@[simp] theorem raiseDecodeError_st (c : ErrCode) (a : Word) (s : State) : (raiseDecodeError c a s).st = .error := rfl
@[simp] theorem raiseDecodeError_ip (c : ErrCode) (a : Word) (s : State) : (raiseDecodeError c a s).ip = a := rfl
@[simp] theorem raiseDecodeError_op (c : ErrCode) (a : Word) (s : State) : (raiseDecodeError c a s).op = s.op := rfl
@[simp] theorem raiseDecodeError_first (c : ErrCode) (a : Word) (s : State) : (raiseDecodeError c a s).first = s.first := rfl
@[simp] theorem raiseDecodeError_lv2 (c : ErrCode) (a : Word) (s : State) : (raiseDecodeError c a s).lv2 = s.lv2 := rfl
@[simp] theorem raiseDecodeError_outLen (c : ErrCode) (a : Word) (s : State) : (raiseDecodeError c a s).outLen = 0 := rfl
@[simp] theorem raiseDecodeError_errCode (c : ErrCode) (a : Word) (s : State) : (raiseDecodeError c a s).errCode = c := rfl
@[simp] theorem raiseDecodeError_errIp (c : ErrCode) (a : Word) (s : State) : (raiseDecodeError c a s).errIp = a := rfl
@[simp] theorem raiseDecodeError_errOp (c : ErrCode) (a : Word) (s : State) : (raiseDecodeError c a s).errOp = s.op := rfl
@[simp] theorem raiseDecodeError_inBuf (c : ErrCode) (a : Word) (s : State) : (raiseDecodeError c a s).inBuf = s.inBuf := rfl
@[simp] theorem raiseDecodeError_outBuf (c : ErrCode) (a : Word) (s : State) : (raiseDecodeError c a s).outBuf = s.outBuf := rfl
@[simp] theorem raiseDecodeError_inputs (c : ErrCode) (a : Word) (s : State) : (raiseDecodeError c a s).inputs = s.inputs := rfl
@[simp] theorem raiseDecodeError_hostRd (c : ErrCode) (a : Word) (s : State) : (raiseDecodeError c a s).hostRd = s.hostRd := rfl
@[simp] theorem raiseDecodeError_era (c : ErrCode) (a : Word) (s : State) : (raiseDecodeError c a s).era = s.era := rfl
@[simp] theorem raiseDecodeError_runs (c : ErrCode) (a : Word) (s : State) : (raiseDecodeError c a s).runs = s.runs := rfl
@[simp] theorem raiseDecodeError_outExtent (c : ErrCode) (a : Word) (s : State) : (raiseDecodeError c a s).outExtent = s.outExtent := rfl

/-! ### `clearRun`: the start of a run (R111) -/

@[simp] theorem clearRun_s1 (s : State) : (clearRun s).s1 = s.s1 := rfl
@[simp] theorem clearRun_s2 (s : State) : (clearRun s).s2 = s.s2 := rfl
@[simp] theorem clearRun_inLen (s : State) : (clearRun s).inLen = s.inLen := rfl
@[simp] theorem clearRun_outCap (s : State) : (clearRun s).outCap = s.outCap := rfl
@[simp] theorem clearRun_mode (s : State) : (clearRun s).mode = s.mode := rfl
@[simp] theorem clearRun_st (s : State) : (clearRun s).st = s.st := rfl
@[simp] theorem clearRun_ip (s : State) : (clearRun s).ip = 0 := rfl
@[simp] theorem clearRun_op (s : State) : (clearRun s).op = 0 := rfl
@[simp] theorem clearRun_first (s : State) : (clearRun s).first = true := rfl
@[simp] theorem clearRun_lv2 (s : State) : (clearRun s).lv2 = false := rfl
@[simp] theorem clearRun_outLen (s : State) : (clearRun s).outLen = 0 := rfl
@[simp] theorem clearRun_errCode (s : State) : (clearRun s).errCode = .none := rfl
@[simp] theorem clearRun_errIp (s : State) : (clearRun s).errIp = 0 := rfl
@[simp] theorem clearRun_errOp (s : State) : (clearRun s).errOp = 0 := rfl
@[simp] theorem clearRun_inBuf (s : State) : (clearRun s).inBuf = s.inBuf := rfl
@[simp] theorem clearRun_outBuf (s : State) : (clearRun s).outBuf = s.outBuf := rfl
@[simp] theorem clearRun_inputs (s : State) : (clearRun s).inputs = s.inputs := rfl
@[simp] theorem clearRun_hostRd (s : State) : (clearRun s).hostRd = s.hostRd := rfl
@[simp] theorem clearRun_era (s : State) : (clearRun s).era = s.era := rfl
@[simp] theorem clearRun_runs (s : State) : (clearRun s).runs = (if s.mode then s.runs else s.runs + 1) := rfl
@[simp] theorem clearRun_outExtent (s : State) : (clearRun s).outExtent = (if s.mode then s.outExtent else 0) := rfl

/-! ### `setLevel`: level detection (R114) -/

@[simp] theorem setLevel_s1 (m : BitVec 3) (s : State) : (setLevel m s).s1 = s.s1 := rfl
@[simp] theorem setLevel_s2 (m : BitVec 3) (s : State) : (setLevel m s).s2 = s.s2 := rfl
@[simp] theorem setLevel_inLen (m : BitVec 3) (s : State) : (setLevel m s).inLen = s.inLen := rfl
@[simp] theorem setLevel_outCap (m : BitVec 3) (s : State) : (setLevel m s).outCap = s.outCap := rfl
@[simp] theorem setLevel_mode (m : BitVec 3) (s : State) : (setLevel m s).mode = s.mode := rfl
@[simp] theorem setLevel_st (m : BitVec 3) (s : State) : (setLevel m s).st = s.st := rfl
@[simp] theorem setLevel_ip (m : BitVec 3) (s : State) : (setLevel m s).ip = s.ip := rfl
@[simp] theorem setLevel_op (m : BitVec 3) (s : State) : (setLevel m s).op = s.op := rfl
@[simp] theorem setLevel_first (m : BitVec 3) (s : State) : (setLevel m s).first = false := rfl
@[simp] theorem setLevel_lv2 (m : BitVec 3) (s : State) : (setLevel m s).lv2 = m.getLsbD 0 := rfl
@[simp] theorem setLevel_outLen (m : BitVec 3) (s : State) : (setLevel m s).outLen = s.outLen := rfl
@[simp] theorem setLevel_errCode (m : BitVec 3) (s : State) : (setLevel m s).errCode = s.errCode := rfl
@[simp] theorem setLevel_errIp (m : BitVec 3) (s : State) : (setLevel m s).errIp = s.errIp := rfl
@[simp] theorem setLevel_errOp (m : BitVec 3) (s : State) : (setLevel m s).errOp = s.errOp := rfl
@[simp] theorem setLevel_inBuf (m : BitVec 3) (s : State) : (setLevel m s).inBuf = s.inBuf := rfl
@[simp] theorem setLevel_outBuf (m : BitVec 3) (s : State) : (setLevel m s).outBuf = s.outBuf := rfl
@[simp] theorem setLevel_inputs (m : BitVec 3) (s : State) : (setLevel m s).inputs = s.inputs := rfl
@[simp] theorem setLevel_hostRd (m : BitVec 3) (s : State) : (setLevel m s).hostRd = s.hostRd := rfl
@[simp] theorem setLevel_era (m : BitVec 3) (s : State) : (setLevel m s).era = s.era := rfl
@[simp] theorem setLevel_runs (m : BitVec 3) (s : State) : (setLevel m s).runs = s.runs := rfl
@[simp] theorem setLevel_outExtent (m : BitVec 3) (s : State) : (setLevel m s).outExtent = s.outExtent := rfl

/-! ### `advance`: moving the cursors (R14, R15) -/

@[simp] theorem advance_s1 (n len : Nat) (s : State) : (advance n len s).s1 = s.s1 := rfl
@[simp] theorem advance_s2 (n len : Nat) (s : State) : (advance n len s).s2 = s.s2 := rfl
@[simp] theorem advance_inLen (n len : Nat) (s : State) : (advance n len s).inLen = s.inLen := rfl
@[simp] theorem advance_outCap (n len : Nat) (s : State) : (advance n len s).outCap = s.outCap := rfl
@[simp] theorem advance_mode (n len : Nat) (s : State) : (advance n len s).mode = s.mode := rfl
@[simp] theorem advance_st (n len : Nat) (s : State) : (advance n len s).st = s.st := rfl
@[simp] theorem advance_ip (n len : Nat) (s : State) : (advance n len s).ip = toWord (s.ip.toNat + n) := rfl
@[simp] theorem advance_op (n len : Nat) (s : State) : (advance n len s).op = toWord (s.op.toNat + len) := rfl
@[simp] theorem advance_first (n len : Nat) (s : State) : (advance n len s).first = s.first := rfl
@[simp] theorem advance_lv2 (n len : Nat) (s : State) : (advance n len s).lv2 = s.lv2 := rfl
@[simp] theorem advance_outLen (n len : Nat) (s : State) : (advance n len s).outLen = s.outLen := rfl
@[simp] theorem advance_errCode (n len : Nat) (s : State) : (advance n len s).errCode = s.errCode := rfl
@[simp] theorem advance_errIp (n len : Nat) (s : State) : (advance n len s).errIp = s.errIp := rfl
@[simp] theorem advance_errOp (n len : Nat) (s : State) : (advance n len s).errOp = s.errOp := rfl
@[simp] theorem advance_inBuf (n len : Nat) (s : State) : (advance n len s).inBuf = s.inBuf := rfl
@[simp] theorem advance_outBuf (n len : Nat) (s : State) : (advance n len s).outBuf = s.outBuf := rfl
@[simp] theorem advance_inputs (n len : Nat) (s : State) : (advance n len s).inputs = s.inputs := rfl
@[simp] theorem advance_hostRd (n len : Nat) (s : State) : (advance n len s).hostRd = s.hostRd := rfl
@[simp] theorem advance_era (n len : Nat) (s : State) : (advance n len s).era = s.era := rfl
@[simp] theorem advance_runs (n len : Nat) (s : State) : (advance n len s).runs = s.runs := rfl
@[simp] theorem advance_outExtent (n len : Nat) (s : State) : (advance n len s).outExtent = s.outExtent := rfl

/-! ### `resetBlock`: RESET (R240) -/

@[simp] theorem resetBlock_s1 (s : State) : (resetBlock s).s1 = 1 := rfl
@[simp] theorem resetBlock_s2 (s : State) : (resetBlock s).s2 = 0 := rfl
@[simp] theorem resetBlock_inLen (s : State) : (resetBlock s).inLen = 0 := rfl
@[simp] theorem resetBlock_outCap (s : State) : (resetBlock s).outCap = 0 := rfl
@[simp] theorem resetBlock_mode (s : State) : (resetBlock s).mode = false := rfl
@[simp] theorem resetBlock_st (s : State) : (resetBlock s).st = .idle := rfl
@[simp] theorem resetBlock_ip (s : State) : (resetBlock s).ip = 0 := rfl
@[simp] theorem resetBlock_op (s : State) : (resetBlock s).op = 0 := rfl
@[simp] theorem resetBlock_first (s : State) : (resetBlock s).first = false := rfl
@[simp] theorem resetBlock_lv2 (s : State) : (resetBlock s).lv2 = false := rfl
@[simp] theorem resetBlock_outLen (s : State) : (resetBlock s).outLen = 0 := rfl
@[simp] theorem resetBlock_errCode (s : State) : (resetBlock s).errCode = .none := rfl
@[simp] theorem resetBlock_errIp (s : State) : (resetBlock s).errIp = 0 := rfl
@[simp] theorem resetBlock_errOp (s : State) : (resetBlock s).errOp = 0 := rfl
@[simp] theorem resetBlock_inBuf (s : State) : (resetBlock s).inBuf = [] := rfl
@[simp] theorem resetBlock_outBuf (s : State) : (resetBlock s).outBuf = [] := rfl
@[simp] theorem resetBlock_inputs (s : State) : (resetBlock s).inputs = s.inputs := rfl
@[simp] theorem resetBlock_hostRd (s : State) : (resetBlock s).hostRd = s.hostRd := rfl
@[simp] theorem resetBlock_era (s : State) : (resetBlock s).era = s.era + 1 := rfl
@[simp] theorem resetBlock_runs (s : State) : (resetBlock s).runs = s.runs + 1 := rfl
@[simp] theorem resetBlock_outExtent (s : State) : (resetBlock s).outExtent = 0 := rfl

/-! ### `putOut`: a new content of `OUT`, or none in a validate-only run (R180) -/

@[simp] theorem putOut_s1 (m : Memory) (len : Nat) (s : State) : (putOut m len s).s1 = s.s1 := by
  unfold putOut; split <;> rfl
@[simp] theorem putOut_s2 (m : Memory) (len : Nat) (s : State) : (putOut m len s).s2 = s.s2 := by
  unfold putOut; split <;> rfl
@[simp] theorem putOut_inLen (m : Memory) (len : Nat) (s : State) : (putOut m len s).inLen = s.inLen := by
  unfold putOut; split <;> rfl
@[simp] theorem putOut_outCap (m : Memory) (len : Nat) (s : State) : (putOut m len s).outCap = s.outCap := by
  unfold putOut; split <;> rfl
@[simp] theorem putOut_mode (m : Memory) (len : Nat) (s : State) : (putOut m len s).mode = s.mode := by
  unfold putOut; split <;> rfl
@[simp] theorem putOut_st (m : Memory) (len : Nat) (s : State) : (putOut m len s).st = s.st := by
  unfold putOut; split <;> rfl
@[simp] theorem putOut_ip (m : Memory) (len : Nat) (s : State) : (putOut m len s).ip = s.ip := by
  unfold putOut; split <;> rfl
@[simp] theorem putOut_op (m : Memory) (len : Nat) (s : State) : (putOut m len s).op = s.op := by
  unfold putOut; split <;> rfl
@[simp] theorem putOut_first (m : Memory) (len : Nat) (s : State) : (putOut m len s).first = s.first := by
  unfold putOut; split <;> rfl
@[simp] theorem putOut_lv2 (m : Memory) (len : Nat) (s : State) : (putOut m len s).lv2 = s.lv2 := by
  unfold putOut; split <;> rfl
@[simp] theorem putOut_outLen (m : Memory) (len : Nat) (s : State) : (putOut m len s).outLen = s.outLen := by
  unfold putOut; split <;> rfl
@[simp] theorem putOut_errCode (m : Memory) (len : Nat) (s : State) : (putOut m len s).errCode = s.errCode := by
  unfold putOut; split <;> rfl
@[simp] theorem putOut_errIp (m : Memory) (len : Nat) (s : State) : (putOut m len s).errIp = s.errIp := by
  unfold putOut; split <;> rfl
@[simp] theorem putOut_errOp (m : Memory) (len : Nat) (s : State) : (putOut m len s).errOp = s.errOp := by
  unfold putOut; split <;> rfl
@[simp] theorem putOut_inBuf (m : Memory) (len : Nat) (s : State) : (putOut m len s).inBuf = s.inBuf := by
  unfold putOut; split <;> rfl
@[simp] theorem putOut_inputs (m : Memory) (len : Nat) (s : State) : (putOut m len s).inputs = s.inputs := by
  unfold putOut; split <;> rfl
@[simp] theorem putOut_hostRd (m : Memory) (len : Nat) (s : State) : (putOut m len s).hostRd = s.hostRd := by
  unfold putOut; split <;> rfl
@[simp] theorem putOut_era (m : Memory) (len : Nat) (s : State) : (putOut m len s).era = s.era := by
  unfold putOut; split <;> rfl
@[simp] theorem putOut_runs (m : Memory) (len : Nat) (s : State) : (putOut m len s).runs = s.runs := by
  unfold putOut; split <;> rfl

@[simp] theorem putOut_outBuf (m : Memory) (len : Nat) (s : State) :
    (putOut m len s).outBuf = if s.mode then s.outBuf else m := by
  unfold putOut; split <;> rfl

@[simp] theorem putOut_outExtent (m : Memory) (len : Nat) (s : State) :
    (putOut m len s).outExtent = if s.mode then s.outExtent else s.op.toNat + len := by
  unfold putOut; split <;> rfl

end Sys2Proof.Machine
end

