-- ==== Sys2Proof/Laws/Ops.lean ====
section
/-! SUPPORT. For each shared operation, everything it can do, said once. -/

namespace Sys2Proof.Machine

/-! ### Checks -/

/-- The guards of `n` operand bytes hold exactly when the last of them is in the stream (R171). -/
theorem operandsPresent_iff (s : State) {n : Nat} (h : 0 < n) :
    operandsPresent s n = true ↔ s.ip.toNat + 1 + n ≤ s.inLen.toNat := by
  simp only [operandsPresent, checkFetch, List.all_eq_true, List.mem_range, decide_eq_true_eq]
  constructor
  · intro hall; have := hall (n - 1) (by omega); omega
  · intro hle j hj; omega

theorem checkLitIn_iff (s : State) (ip r : Nat) : checkLitIn s ip r = true ↔ ip + r ≤ s.inLen.toNat := by
  simp [checkLitIn]

theorem checkOut_iff (s : State) (op n : Nat) : checkOut s op n = true ↔ op + n ≤ s.outCap.toNat := by
  simp [checkOut]

theorem checkRef_iff (op dist : Nat) : checkRef op dist = true ↔ dist ≤ op := by simp [checkRef]

/-! ### A computed cursor fits its register (R13) -/

theorem toWord_toNat {n : Nat} {w : Word} (h : n ≤ w.toNat) : (toWord n).toNat = n := by
  have := w.isLt
  simp only [toWord, BitVec.toNat_ofNat]
  omega

/-! ### Literal run (R131) -/

/-- A literal run raises one of its two errors, the stream's end before the capacity, or copies and moves on. -/
theorem literalRun_cases (lits : List Byte) (s : State) :
    (s.inLen.toNat < s.ip.toNat + 1 + lits.length ∧ literalRun lits s = raiseDecodeError .inUnderrun s.ip s) ∨
    (s.ip.toNat + 1 + lits.length ≤ s.inLen.toNat ∧ s.outCap.toNat < s.op.toNat + lits.length ∧
      literalRun lits s = raiseDecodeError .outOverflow s.ip s) ∨
    (s.ip.toNat + 1 + lits.length ≤ s.inLen.toNat ∧ s.op.toNat + lits.length ≤ s.outCap.toNat ∧
      literalRun lits s = advance (1 + lits.length) lits.length
        (putOut (storeBytes s.outBuf s.op.toNat lits) lits.length s)) := by
  unfold literalRun
  simp only [checkLitIn, checkOut, decide_eq_false_iff_not, Nat.not_le]
  split
  · exact .inl ⟨‹_›, rfl⟩
  · split
    · exact .inr (.inl ⟨by omega, ‹_›, rfl⟩)
    · exact .inr (.inr ⟨by omega, by omega, rfl⟩)

/-! ### Match (R140, R213) -/

/-- A match raises one of its three errors, in the order of R213, or copies and moves on. -/
theorem matchCopy_cases {n : Nat} (hn : 0 < n) (len dist : Nat) (s : State) :
    (s.inLen.toNat < s.ip.toNat + 1 + n ∧ matchCopy n len dist s = raiseDecodeError .inUnderrun s.ip s) ∨
    (s.ip.toNat + 1 + n ≤ s.inLen.toNat ∧ s.outCap.toNat < s.op.toNat + len ∧
      matchCopy n len dist s = raiseDecodeError .outOverflow s.ip s) ∨
    (s.ip.toNat + 1 + n ≤ s.inLen.toNat ∧ s.op.toNat + len ≤ s.outCap.toNat ∧ s.op.toNat < dist ∧
      matchCopy n len dist s = raiseDecodeError .badRef s.ip s) ∨
    (s.ip.toNat + 1 + n ≤ s.inLen.toNat ∧ s.op.toNat + len ≤ s.outCap.toNat ∧ dist ≤ s.op.toNat ∧
      matchCopy n len dist s = advance (1 + n) len
        (putOut (copyForward s.era s.outBuf s.op.toNat (s.op.toNat - dist) len) len s)) := by
  have hp := operandsPresent_iff s hn
  unfold matchCopy
  simp only [checkOut, checkRef, decide_eq_false_iff_not, Nat.not_le]
  split
  · rename_i h; left
    refine ⟨?_, rfl⟩
    rw [← Bool.not_eq_true, hp] at h; omega
  · rename_i h
    have h' := hp.1 (by simpa using h)
    split
    · exact .inr (.inl ⟨h', ‹_›, rfl⟩)
    · split
      · exact .inr (.inr (.inl ⟨h', by omega, ‹_›, rfl⟩))
      · exact .inr (.inr (.inr ⟨h', by omega, by omega, rfl⟩))

/-! ### Start and stop -/

/-- A start ends at once in `ERROR` or `DONE`, or begins a run (R111). -/
theorem startRun_cases (p : Config.Params) (s : State) :
    ((p.inMax < s.inLen.toNat ∨ p.outMax < s.outCap.toNat) ∧
      startRun p s = { clearRun s with st := .error, errCode := .param }) ∨
    (s.inLen.toNat ≤ p.inMax ∧ s.outCap.toNat ≤ p.outMax ∧ s.inLen = 0 ∧
      startRun p s = { clearRun s with st := .done }) ∨
    (s.inLen.toNat ≤ p.inMax ∧ s.outCap.toNat ≤ p.outMax ∧ s.inLen ≠ 0 ∧
      startRun p s = { clearRun s with st := .busy }) := by
  unfold startRun
  split
  · exact .inl ⟨‹_›, rfl⟩
  · split
    · exact .inr (.inl ⟨by omega, by omega, ‹_›, rfl⟩)
    · exact .inr (.inr ⟨by omega, by omega, ‹_›, rfl⟩)

/-- The stop rule ends a running stream of fewer than two bytes, and does nothing else (R116). -/
theorem stopRule_cases (s : State) :
    (s.st = .busy ∧ s.inLen.toNat < s.ip.toNat + 2 ∧ stopRule s = { s with st := .done, outLen := s.op }) ∨
    ((s.st = .busy → s.ip.toNat + 2 ≤ s.inLen.toNat) ∧ stopRule s = s) := by
  unfold stopRule
  split
  · rename_i h; exact .inl ⟨h.1, h.2, rfl⟩
  · rename_i h
    refine .inr ⟨fun hb => ?_, rfl⟩
    by_contra hc
    exact h ⟨hb, by omega⟩

end Sys2Proof.Machine
end

