-- ==== Sys2Proof/Laws/WellFormed.lean ====
section
/-! SUPPORT. The well-formedness checks as propositions, and the three facts about tag bytes that decoding rests on
(spec/30_encoding.md R61, R64). -/

namespace Sys2Proof

theorem litsOk_iff (lits : List Byte) : litsOk lits = true ↔ 1 ≤ lits.length ∧ lits.length ≤ 32 := by
  unfold litsOk
  rw [Bool.and_eq_true, decide_eq_true_iff, decide_eq_true_iff]
  exact Iff.rfl

theorem shortFieldOk_iff (l : BitVec 3) : shortFieldOk l = true ↔ l ≠ 0 ∧ l ≠ 7 := by
  simp [shortFieldOk]

theorem notFarMark_iff (hi : BitVec 5) (lo : Byte) : notFarMark hi lo = true ↔ ¬ (hi = 31 ∧ lo = 255) := by
  simp [notFarMark, Config.farMarkHi, Config.farMarkLo, ← not_and_or]

@[simp] theorem tagLen_tagByte (l : BitVec 3) (x : BitVec 5) : tagLen (tagByte l x) = l := by revert l x; decide

@[simp] theorem tagLow_tagByte (l : BitVec 3) (x : BitVec 5) : tagLow (tagByte l x) = x := by revert l x; decide

@[simp] theorem tagByte_of_fields (t : Byte) : tagByte (tagLen t) (tagLow t) = t := by revert t; decide

/-- The literal count the tag gives is the number of bytes it was made from (R64). -/
theorem litCount_of_ok {lits : List Byte} (h : litsOk lits = true) :
    (BitVec.ofNat 5 (lits.length - 1)).toNat + 1 = lits.length := by
  have := (litsOk_iff lits).1 h
  simp only [BitVec.toNat_ofNat]; omega

end Sys2Proof
end

