-- ==== Sys2Proof/Laws/Opcode.lean ====
section
/-! SUPPORT. Everything a bitstream opcode can do, said once for all eight formats: raise an error with no effect but the
error's, or move both cursors and write the bytes between the old and the new `OP` (spec/45_validator.md R176). -/

namespace Sys2Proof.Machine

/-- `m` is the content of `OUT` after `len` bytes were written at `OP`. -/
structure OutWrite (s : State) (m : Memory) (len : Nat) : Prop where
  wf : s.outBuf.wf → m.wf
  mem : ∀ c ∈ m, (s.op.toNat ≤ c.1 ∧ c.1 < s.op.toNat + len) ∨ c ∈ s.outBuf
  outside : ∀ x, x < s.op.toNat ∨ s.op.toNat + len ≤ x → m.lookup x = s.outBuf.lookup x
  inside : ∀ x, s.op.toNat ≤ x → x < s.op.toNat + len → (m.lookup x).isSome = true

theorem outWrite_storeBytes (s : State) (lits : List Byte) :
    OutWrite s (storeBytes s.outBuf s.op.toNat lits) lits.length where
  wf h := storeBytes_wf h _ _
  mem c hc := mem_storeBytes hc
  outside x hx := lookup_storeBytes_outside _ _ _ hx
  inside x h1 h2 := by
    obtain ⟨i, rfl⟩ := Nat.exists_eq_add_of_le h1
    rw [lookup_storeBytes_inside _ _ _ (by omega)]; rfl

theorem outWrite_copyForward (s : State) {dist : Nat} (len : Nat) (h1 : 1 ≤ dist) (h2 : dist ≤ s.op.toNat) :
    OutWrite s (copyForward s.era s.outBuf s.op.toNat (s.op.toNat - dist) len) len where
  wf h := copyForward_wf _ h _ _ _
  mem c hc := mem_copyForward hc
  outside x hx := lookup_copyForward_outside _ _ _ _ _ hx
  inside x h3 h4 := by
    obtain ⟨i, rfl⟩ := Nat.exists_eq_add_of_le h3
    rw [lookup_copyForward_inside _ _ _ (by omega) (by omega)]; rfl

/-- The two ways an opcode ends, from the state `u` in which its level is set. -/
def OpcodeEnds (s u t : State) : Prop :=
  (∃ code, code ≠ .none ∧ code ≠ .param ∧ t = raiseDecodeError code s.ip u) ∨
  (∃ n len m, 1 ≤ n ∧ 1 ≤ len ∧ s.ip.toNat + 1 + n ≤ s.inLen.toNat ∧ s.op.toNat + len ≤ s.outCap.toNat ∧
    OutWrite s m len ∧ t = advance (1 + n) len (putOut m len u))

theorem literalRun_ends {lits : List Byte} (h : 1 ≤ lits.length) (s : State) :
    OpcodeEnds s s (literalRun lits s) := by
  rcases literalRun_cases lits s with ⟨-, e⟩ | ⟨-, -, e⟩ | ⟨h1, h2, e⟩
  · exact .inl ⟨_, by simp, by simp, e⟩
  · exact .inl ⟨_, by simp, by simp, e⟩
  · exact .inr ⟨_, _, _, h, h, h1, h2, outWrite_storeBytes s lits, e⟩

theorem matchCopy_ends {n len dist : Nat} (hn : 1 ≤ n) (hl : 1 ≤ len) (hd : 1 ≤ dist) (s : State) :
    OpcodeEnds s s (matchCopy n len dist s) := by
  rcases matchCopy_cases hn len dist s with ⟨-, e⟩ | ⟨-, -, e⟩ | ⟨-, -, -, e⟩ | ⟨h1, h2, h3, e⟩
  · exact .inl ⟨_, by simp, by simp, e⟩
  · exact .inl ⟨_, by simp, by simp, e⟩
  · exact .inl ⟨_, by simp, by simp, e⟩
  · exact .inr ⟨_, _, _, hn, hl, h1, h2, outWrite_copyForward s len hd h3, e⟩

theorem litsOk_pos {lits : List Byte} (h : litsOk lits = true) : 1 ≤ lits.length := by
  exact ((litsOk_iff lits).1 h).1

theorem shortLen_pos (l : BitVec 3) : 1 ≤ shortLen l := by simp only [shortLen]; omega

/-- A later opcode ends in one of the two ways, from the state itself. -/
theorem exec_later_ends {i : Instr} (hw : i.wf = true) {d : Dialect} (hd : d ≠ .first) (hf : i.fits d = true)
    {s t : State} (h : exec i s = .next t) : OpcodeEnds s s t := by
  cases i with
  | hdr m lits => simp [Instr.fits] at hf; exact absurd hf hd
  | lit lits => cases h; exact literalRun_ends (litsOk_pos hw) s
  | m1s l hi lo => cases h; exact matchCopy_ends (by omega) (shortLen_pos l) (nearDist_pos hi lo) s
  | m1l hi ext lo => cases h; exact matchCopy_ends (by omega) (by rw [longLen1_eq]; omega) (nearDist_pos hi lo) s
  | m2ns l hi lo => cases h; exact matchCopy_ends (by omega) (shortLen_pos l) (nearDist_pos hi lo) s
  | m2nl hi k c lo => cases h; exact matchCopy_ends (by omega) (by rw [longLen2_eq]; omega) (nearDist_pos hi lo) s
  | m2fs l exhi exlo => cases h; exact matchCopy_ends (by omega) (shortLen_pos l) (farDist_pos exhi exlo) s
  | m2fl k c exhi exlo => cases h; exact matchCopy_ends (by omega) (by rw [longLen2_eq]; omega) (farDist_pos exhi exlo) s
  | adlLoad v => simp [Instr.fits] at hf
  | adlPush b => simp [Instr.fits] at hf
  | adlRead => simp [Instr.fits] at hf
  | decStart => simp [Instr.fits] at hf

/-- The first opcode, with a legal marker, ends in one of the two ways, from the state with the level set. -/
theorem exec_first_ends {i : Instr} (hw : i.wf = true) (hf : i.fits .first = true) {s t : State}
    (h : exec i s = .next t) : ∃ m, OpcodeEnds s (setLevel m s) t := by
  cases i with
  | hdr m lits =>
    simp [Instr.wf] at hw
    cases h
    rw [if_neg (by omega)]
    obtain ⟨code, h1, h2, e⟩ | ⟨n, len, o, h1, h2, h3, h4, h5, e⟩ := literalRun_ends (litsOk_pos hw.2) (setLevel m s)
    · exact ⟨m, .inl ⟨code, h1, h2, e⟩⟩
    · exact ⟨m, .inr ⟨n, len, o, h1, h2, h3, h4, ⟨h5.wf, h5.mem, h5.outside, h5.inside⟩, e⟩⟩
  | lit lits => simp [Instr.fits] at hf
  | m1s l hi lo => simp [Instr.fits] at hf
  | m1l hi ext lo => simp [Instr.fits] at hf
  | m2ns l hi lo => simp [Instr.fits] at hf
  | m2nl hi k c lo => simp [Instr.fits] at hf
  | m2fs l exhi exlo => simp [Instr.fits] at hf
  | m2fl k c exhi exlo => simp [Instr.fits] at hf
  | adlLoad v => simp [Instr.fits] at hf
  | adlPush b => simp [Instr.fits] at hf
  | adlRead => simp [Instr.fits] at hf
  | decStart => simp [Instr.fits] at hf

end Sys2Proof.Machine
end

