-- ==== Sys2Proof/Laws/PerInstr.lean ====
section
/-! SUPPORT. For every instruction: its encoding is its tag and its operand bytes, and a host command has no bytes
(spec/30_encoding.md R62 "total length", R69). -/

namespace Sys2Proof.Laws

/-- The bytes of an opcode are one more than its operand bytes; a host command has none. -/
def EncodeLength.Statement (i : Instr) : Prop :=
  (encode i).length = if (encodeHost i).isSome then 0 else 1 + operandBytes i

theorem EncodeLength.hdr (m : BitVec 3) (lits : List Byte) : EncodeLength.Statement (.hdr m lits) := by
  simp [EncodeLength.Statement, encode, encodeHost, operandBytes]; omega

theorem EncodeLength.lit (lits : List Byte) : EncodeLength.Statement (.lit lits) := by
  simp [EncodeLength.Statement, encode, encodeHost, operandBytes]; omega

theorem EncodeLength.m1s (l : BitVec 3) (hi : BitVec 5) (lo : Byte) : EncodeLength.Statement (.m1s l hi lo) := rfl

theorem EncodeLength.m1l (hi : BitVec 5) (ext lo : Byte) : EncodeLength.Statement (.m1l hi ext lo) := rfl

theorem EncodeLength.m2ns (l : BitVec 3) (hi : BitVec 5) (lo : Byte) : EncodeLength.Statement (.m2ns l hi lo) := rfl

theorem EncodeLength.m2nl (hi : BitVec 5) (k : Nat) (c lo : Byte) : EncodeLength.Statement (.m2nl hi k c lo) := by
  simp [EncodeLength.Statement, encode, encodeHost, operandBytes]; omega

theorem EncodeLength.m2fs (l : BitVec 3) (exhi exlo : Byte) : EncodeLength.Statement (.m2fs l exhi exlo) := rfl

theorem EncodeLength.m2fl (k : Nat) (c exhi exlo : Byte) : EncodeLength.Statement (.m2fl k c exhi exlo) := by
  simp [EncodeLength.Statement, encode, encodeHost, operandBytes]; omega

theorem EncodeLength.adlLoad (v : BitVec 32) : EncodeLength.Statement (.adlLoad v) := rfl

theorem EncodeLength.adlPush (b : Byte) : EncodeLength.Statement (.adlPush b) := rfl

theorem EncodeLength.adlRead : EncodeLength.Statement .adlRead := rfl

theorem EncodeLength.decStart : EncodeLength.Statement .decStart := rfl

end Sys2Proof.Laws
end

