-- ==== Sys2Proof/Laws/Step.lean ====
section
/-! SUPPORT. What a step can be, said once: whose turn it is, and what each agent's turn does. -/

namespace Sys2Proof.Machine

/-! ## The turns to come are no operand of anything the block does -/

theorem ite_withInputs {c : Prop} [Decidable c] {a b a' b' : State} {r : List Input}
    (ha : a' = { a with inputs := r }) (hb : b' = { b with inputs := r }) :
    (if c then a' else b') = { (if c then a else b) with inputs := r } := by
  split
  · exact ha
  · exact hb

theorem putOut_withInputs (m : Memory) (len : Nat) (s : State) (r : List Input) :
    putOut m len { s with inputs := r } = { putOut m len s with inputs := r } :=
  ite_withInputs rfl rfl

theorem literalRun_withInputs (lits : List Byte) (s : State) (r : List Input) :
    literalRun lits { s with inputs := r } = { literalRun lits s with inputs := r } :=
  ite_withInputs rfl (ite_withInputs rfl (congrArg (advance _ _) (putOut_withInputs _ _ s r)))

theorem matchCopy_withInputs (n len dist : Nat) (s : State) (r : List Input) :
    matchCopy n len dist { s with inputs := r } = { matchCopy n len dist s with inputs := r } :=
  ite_withInputs rfl (ite_withInputs rfl (ite_withInputs rfl (congrArg (advance _ _) (putOut_withInputs _ _ s r))))

theorem clearRun_withInputs (s : State) (r : List Input) :
    clearRun { s with inputs := r } = { clearRun s with inputs := r } := rfl

theorem startRun_withInputs (p : Config.Params) (s : State) (r : List Input) :
    startRun p { s with inputs := r } = { startRun p s with inputs := r } :=
  ite_withInputs rfl (ite_withInputs rfl rfl)

/-- No instruction looks at the turns to come, and none changes them. -/
theorem exec_withInputs (i : Instr) (s : State) (r : List Input) :
    exec i { s with inputs := r } = mapNext (fun t => { t with inputs := r }) (exec i s) := by
  cases i with
  | hdr m lits =>
    exact congrArg Host.Outcome.next (ite_withInputs rfl (literalRun_withInputs lits (setLevel m s) r))
  | lit lits => exact congrArg _ (literalRun_withInputs lits s r)
  | m1s l hi lo => exact congrArg _ (matchCopy_withInputs _ _ _ s r)
  | m1l hi ext lo => exact congrArg _ (matchCopy_withInputs _ _ _ s r)
  | m2ns l hi lo => exact congrArg _ (matchCopy_withInputs _ _ _ s r)
  | m2nl hi k c lo => exact congrArg _ (matchCopy_withInputs _ _ _ s r)
  | m2fs l exhi exlo => exact congrArg _ (matchCopy_withInputs _ _ _ s r)
  | m2fl k c exhi exlo => exact congrArg _ (matchCopy_withInputs _ _ _ s r)
  | adlLoad v => rfl
  | adlPush b => rfl
  | adlRead => rfl
  | decStart =>
    exact congrArg Host.Outcome.next (ite_withInputs rfl (startRun_withInputs Config.params s r))

/-! ## What a step can be -/

/-- Every instruction answers a next state: the block has no stop of its own (R215). -/
theorem exec_answers (i : Instr) (s : State) : ∃ t, exec i s = .next t := by
  cases i <;> exact ⟨_, rfl⟩

theorem step_of_no_input {s : State} (h : s.inputs = []) : step s = decTurn s := by simp only [step, h]

theorem step_of_input {s : State} {e : Input} {rest : List Input} (h : s.inputs = e :: rest) :
    step s = turn e { s with inputs := rest } := by simp only [step, h]

theorem decTurn_of_not_busy {s : State} (h : s.st ≠ .busy) : decTurn s = .next s := by simp [decTurn, h]

theorem decTurn_of_instr {s : State} (hb : s.st = .busy) {i : Instr} {rest : List Byte}
    (h : decode (dialectOf s) (streamTail s) = .instr i rest) : decTurn s = mapNext stopRule (exec i s) := by
  simp [decTurn, hb, h]

theorem decTurn_of_reject {s : State} (hb : s.st = .busy) {r : DecodeReject}
    (h : decode (dialectOf s) (streamTail s) = .reject r) : decTurn s = .next (fetchError r s) := by
  simp [decTurn, hb, h]

/-- DEC's turn: nothing outside `BUSY`; else one decoded opcode and the stop rule, or the error of bytes that are no
opcode (R112). -/
theorem decTurn_cases (s : State) :
    (s.st ≠ .busy ∧ decTurn s = .next s) ∨
    (s.st = .busy ∧ ∃ i rest t, decode (dialectOf s) (streamTail s) = .instr i rest ∧ exec i s = .next t ∧
      decTurn s = .next (stopRule t)) ∨
    (s.st = .busy ∧ ∃ r, decode (dialectOf s) (streamTail s) = .reject r ∧ decTurn s = .next (fetchError r s)) := by
  by_cases hb : s.st = .busy
  · right
    cases h : decode (dialectOf s) (streamTail s) with
    | instr i rest =>
      obtain ⟨t, ht⟩ := exec_answers i s
      exact .inl ⟨hb, i, rest, t, rfl, ht, by rw [decTurn_of_instr hb h, ht]; rfl⟩
    | reject r => exact .inr ⟨hb, r, rfl, decTurn_of_reject hb h⟩
  · exact .inl ⟨hb, decTurn_of_not_busy hb⟩

/-- Every turn answers a next state. -/
theorem turn_answers (e : Input) (s : State) : ∃ t, turn e s = .next t := by
  cases e with
  | host h =>
    simp only [turn, hostTurn]
    split
    · exact exec_answers _ _
    · exact ⟨_, rfl⟩
  | dec =>
    rcases decTurn_cases s with ⟨-, h⟩ | ⟨-, i, rest, t, -, -, h⟩ | ⟨-, r, -, h⟩
    · exact ⟨_, h⟩
    · exact ⟨_, h⟩
    · exact ⟨_, h⟩
  | reset => exact ⟨_, rfl⟩

/-- Every step answers a next state: no reachable or unreachable state stops the machine. -/
theorem step_answers (s : State) : ∃ t, step s = .next t := by
  cases h : s.inputs with
  | nil => rw [step_of_no_input h]; exact turn_answers .dec s
  | cons e rest => rw [step_of_input h]; exact turn_answers e _

/-- The error entry of bytes that are no opcode (R215): one of two codes, at the tag, with the output as it was. -/
theorem fetchError_cases (r : DecodeReject) (s : State) :
    ∃ code u, fetchError r s = raiseDecodeError code s.ip u ∧ (code = .level ∨ code = .inUnderrun) ∧
      (u = s ∨ ∃ m, u = setLevel m s) := by
  cases r with
  | noTag => exact ⟨_, s, rfl, .inr rfl, .inl rfl⟩
  | illegalLevel m => exact ⟨_, s, rfl, .inl rfl, .inl rfl⟩
  | truncated o =>
    cases o with
    | none => exact ⟨_, s, rfl, .inr rfl, .inl rfl⟩
    | some m => exact ⟨_, setLevel m s, rfl, .inr rfl, .inr ⟨m, rfl⟩⟩

end Sys2Proof.Machine
end

