-- ==== Sys2Proof/Tests/Slice0.lean ====
section
/-! SUPPORT. Tests: expected values come from spec/95_test_vectors.md (named V, W, A, P there), spec/30_encoding.md
and hand calculation from the rules. Then the witnesses: for every statement with hypotheses, a state and operands
that meet them all, clause by clause, at boundary values. -/

namespace Sys2Proof.Tests

open Sys2Proof.Machine Sys2Proof.Claim

/-! ## Helpers -/

/-- A running decoder in front of a later opcode: stream, offset of its tag, output so far, capacity. -/
def running (lv2 : Bool) (stream : List Byte) (ip : Nat) (out : List Byte) (cap : Nat) : State :=
  { State.reset with
    st := .busy, lv2 := lv2, inLen := toWord stream.length, outCap := toWord cap, inBuf := storeBytes [] 0 stream,
    ip := toWord ip, op := toWord out.length, outBuf := storeBytes [] 0 out, outExtent := out.length }

/-- A decoder right after `DEC_START`. -/
def started (stream : List Byte) (cap : Nat) : State :=
  { running false stream 0 [] cap with first := true }

/-- A state with one host operation, or another turn, to come. -/
def withTurn (e : Input) (s : State) : State := { s with inputs := [e] }

/-- What a field is after an answer. -/
def field {α : Type} (f : State → α) : Result → Option α
  | .next t => some (f t)
  | .fault _ => none
  | .refused _ => none

/-- The bytes of `OUT` that a state lists. -/
def outBytes (t : State) : List Byte := t.outBuf.map Prod.snd

/-- The end of a run as a table row of spec/95_test_vectors.md. -/
def endOf (t : State) : DecState × ErrCode × Word × Word × Word := (t.st, t.errCode, t.errIp, t.errOp, t.outLen)

/-! ## Well-formedness: one ill-formed term for each check -/

theorem test_wf_refuses_marker_2 : (Instr.hdr 2 [1]).wf = false := by decide
theorem test_wf_refuses_hdr_without_bytes : (Instr.hdr 0 []).wf = false := by decide
theorem test_wf_refuses_lit_without_bytes : (Instr.lit []).wf = false := by decide
theorem test_wf_refuses_lit_of_33_bytes : (Instr.lit (List.replicate 33 0)).wf = false := by decide
theorem test_wf_refuses_m1s_field_0 : (Instr.m1s 0 1 2).wf = false := by decide
theorem test_wf_refuses_m1s_field_7 : (Instr.m1s 7 1 2).wf = false := by decide
theorem test_wf_refuses_m2ns_field_7 : (Instr.m2ns 7 1 2).wf = false := by decide
theorem test_wf_refuses_m2ns_far_mark : (Instr.m2ns 1 31 255).wf = false := by decide
theorem test_wf_refuses_m2nl_far_mark : (Instr.m2nl 31 0 0 255).wf = false := by decide
theorem test_wf_refuses_m2nl_last_255 : (Instr.m2nl 1 0 255 0).wf = false := by decide
theorem test_wf_refuses_m2fs_field_0 : (Instr.m2fs 0 1 2).wf = false := by decide
theorem test_wf_refuses_m2fl_last_255 : (Instr.m2fl 3 255 1 2).wf = false := by decide
theorem test_wf_takes_lit_of_32_bytes : (Instr.lit (List.replicate 32 0)).wf = true := by decide
theorem test_fits_no_hdr_later : (Instr.hdr 0 [1]).fits .level1 = false := by decide

/-! ## Decoding: words written out from the formats of R62 and R64 -/

theorem test_decode_hdr : decode .first [0b00100001, 0x61, 0x62, 9] = .instr (.hdr 1 [0x61, 0x62]) [9] := by decide
theorem test_decode_lit : decode .level2 [0b00000000, 0x78, 9] = .instr (.lit [0x78]) [9] := by decide
theorem test_decode_m1s : decode .level1 [0b00111111, 0xFF] = .instr (.m1s 1 31 255) [] := by decide
theorem test_decode_m1l : decode .level1 [0b11100010, 0xFF, 7, 9] = .instr (.m1l 2 255 7) [9] := by decide
theorem test_decode_m2ns : decode .level2 [0b11000000, 0] = .instr (.m2ns 6 0 0) [] := by decide
theorem test_decode_m2nl : decode .level2 [0b11100011, 255, 0, 4, 9] = .instr (.m2nl 3 1 0 4) [9] := by decide
theorem test_decode_m2fs : decode .level2 [0b00111111, 255, 0xFF, 0xFE] = .instr (.m2fs 1 0xFF 0xFE) [] := by decide
theorem test_decode_m2fl : decode .level2 [0b11111111, 5, 255, 1, 0] = .instr (.m2fl 0 5 1 0) [] := by decide
theorem test_decode_adl_load : decodeHost (.writeReg .adlSum 0xAAAAAAAA0AD20263) = some (.adlLoad 0x0AD20263) := by
  decide
theorem test_decode_adl_push : decodeHost (.writeReg .adlData 0x1FF) = some (.adlPush 0xFF) := by decide
theorem test_decode_adl_read : decodeHost (.readReg .adlSum) = some .adlRead := by decide
theorem test_decode_dec_start : decodeHost (.writeReg .decCmd 3) = some .decStart := by decide
theorem test_decode_start_needs_bit_0 : decodeHost (.writeReg .decCmd 2) = none := by decide

theorem test_decode_rejects_nothing : decode .level1 [] = .reject .noTag := by decide
theorem test_decode_rejects_marker : decode .first [0x40, 0x61] = .reject (.illegalLevel 2) := by decide
theorem test_decode_rejects_cut_length_run : decode .level2 [0xE0, 255, 255] = .reject (.truncated none) := by decide
theorem test_decode_rejects_cut_first : decode .first [0x20] = .reject (.truncated (some 1)) := by decide

theorem test_table_word_m2fs : decodeTableWord 32 0x0000FF3F = some (.m2fs 1 0 0) := by decide
theorem test_table_word_lit : decodeTableWord 8 0x01 = some (.lit [0, 0]) := by decide
theorem test_fetched_word_runs :
    field State.op (step (State.withFetchWord { State.reset with outCap := 2 } 8 0x01)) = some 2 := by decide

/-! ## One step each (spec/95_test_vectors.md) -/

/-- W1, first step. -/
theorem test_hdr_level_2 :
    field (fun t => (t.lv2, t.first, outBytes t)) (exec (.hdr 1 [0x78]) (started [0x20, 0x78] 1)) =
      some (true, false, [0x78]) := by decide

/-- V8: `FIRST` stays 1. -/
theorem test_hdr_illegal_level :
    field (fun t => (endOf t, t.first)) (step (started [0x40, 0x61] 64)) =
      some ((.error, .level, 0, 0, 0), true) := by decide

/-- V6, second step. -/
theorem test_lit_second :
    field (fun t => (endOf t, outBytes t)) (step (running false [0x00, 0x61, 0x01, 0x62, 0x63] 2 [0x61] 64)) =
      some ((.done, .none, 0, 0, 3), [0x61, 0x62, 0x63]) := by decide

/-- P3 at offset 48 with one byte of capacity too few. -/
theorem test_lit_overflow :
    field endOf (step (running false [0x02, 1, 2, 3, 0x00, 0x5A] 4 [1, 2, 3] 3)) =
      some (.error, .outOverflow, 4, 3, 0) := by decide

/-- V11: overlapping copy, and the stop rule. -/
theorem test_m1s_overlaps :
    field (fun t => (endOf t, outBytes t)) (step (running false [0x01, 0x61, 0x62, 0xC0, 0x01] 3 [0x61, 0x62] 64)) =
      some ((.done, .none, 0, 0, 10), [0x61, 0x62, 0x61, 0x62, 0x61, 0x62, 0x61, 0x62, 0x61, 0x62]) := by decide

/-- V23: in level 1 `3F FF` is no far marker. -/
theorem test_m1s_distance_8192 :
    field endOf (step (running false [0x00, 0x61, 0x3F, 0xFF] 2 [0x61] 64)) = some (.error, .badRef, 2, 1, 0) := by
  decide

/-- V18: a capacity that is just enough. -/
theorem test_m1l_fits :
    field (fun t => (endOf t, t.ip)) (step (running false [0x00, 0x61, 0xE0, 0x0B, 0x00] 2 [0x61] 21)) =
      some ((.done, .none, 0, 0, 21), 5) := by decide

/-- V21: a missing operand outranks a full buffer (R213). -/
theorem test_m1l_underrun_first :
    field endOf (step (running false [0x00, 0x61, 0xE0, 0x0B] 2 [0x61] 1)) = some (.error, .inUnderrun, 2, 1, 0) := by
  decide

/-- W3. -/
theorem test_m2ns_copies :
    field outBytes (step (running true [0x22, 0x61, 0x62, 0x63, 0x80, 0x02] 4 [0x61, 0x62, 0x63] 64)) =
      some [0x61, 0x62, 0x63, 0x61, 0x62, 0x63, 0x61, 0x62, 0x63] := by decide

/-- W6: one continuation byte, length 264 (validate only, so that nothing is copied). -/
theorem test_m2nl_length_264 :
    field (fun t => (endOf t, outBytes t))
        (step { running true [0x20, 0x61, 0xE0, 0xFF, 0x00, 0x00] 2 [0x61] 265 with mode := true }) =
      some ((.done, .none, 0, 0, 265), [0x61]) := by decide

/-- W10. -/
theorem test_m2fs_bad_ref :
    field endOf (step (running true [0x20, 0x61, 0x3F, 0xFF, 0, 0] 2 [0x61] 100000)) =
      some (.error, .badRef, 2, 1, 0) := by decide

/-- P3 at offset 38: the source is 8192 before `OP`; a validate-only state stands for the 8192 bytes of output. -/
theorem test_m2fs_reaches_8192 :
    field (fun t => (t.op, t.ip))
        (step { running true [0x3F, 0xFF, 0, 0, 0, 0x5A] 0 [] 8496 with op := 8192, mode := true }) =
      some (8195, 4) := by decide

/-- W14: all bytes are consumed before the reference is checked. -/
theorem test_m2fl_bad_ref :
    field endOf (step (running true [0x20, 0x61, 0xFF, 0xFF, 0, 0xFF, 0, 0] 2 [0x61] 100000)) =
      some (.error, .badRef, 2, 1, 0) := by decide

/-- P3 at offset 42. -/
theorem test_m2fl_length_300 :
    field (fun t => (t.op, t.ip))
        (step { running true [0xFF, 0xFF, 0x24, 0xFF, 0, 3, 0, 0x5A] 0 [] 8496 with op := 8195, mode := true }) =
      some (8495, 6) := by decide

/-- R92: neither half is reduced. -/
theorem test_adl_load_raw :
    field (fun t => (t.s1, t.s2)) (exec (.adlLoad 0xFFF0FFF1) State.reset) = some (0xFFF1, 0xFFF0) := by decide

/-- A19: both sums wrap. -/
theorem test_adl_push_wraps :
    field (fun t => (t.s1, t.s2)) (exec (.adlPush 0xFF) { State.reset with s1 := 0xFFF0, s2 := 0xFFF0 }) =
      some (0xFE, 0xFD) := by decide

/-- A1. -/
theorem test_adl_read_after_reset : field State.hostRd (exec .adlRead State.reset) = some 1 := by decide

/-- V24: one trailing byte is ignored. -/
theorem test_stop_rule_ignores_one_byte :
    field (fun t => (endOf t, t.ip)) (step (started [0x00, 0x61, 0x05] 64)) = some ((.done, .none, 0, 0, 1), 2) := by
  decide

/-- R111: an empty stream ends at once. The parameters are not known, so the clause is taken from `startRun`. -/
theorem test_dec_start_on_nothing :
    (startRun ⟨1, 0, true⟩ State.reset).st = .done ∧ (startRun ⟨1, 0, true⟩ State.reset).first = true := by decide

/-- R111, R214. -/
theorem test_dec_start_over_the_buffer :
    (startRun ⟨4, 4, true⟩ { State.reset with inLen := 5 }).errCode = .param := by decide

/-! ## Witnesses: states and operands that meet the hypotheses of the statements, at boundary values -/

/-- The conditions of the clauses of `matchRule`, in its order. -/
def completes (n len dist : Nat) (s : State) : Bool :=
  s.ip.toNat + 1 + n ≤ s.inLen.toNat && s.op.toNat + len ≤ s.outCap.toNat && dist ≤ s.op.toNat
def underruns (n : Nat) (s : State) : Bool := s.inLen.toNat < s.ip.toNat + 1 + n
def overflows (n len : Nat) (s : State) : Bool :=
  s.ip.toNat + 1 + n ≤ s.inLen.toNat && s.outCap.toNat < s.op.toNat + len
def badRefs (n len dist : Nat) (s : State) : Bool :=
  s.ip.toNat + 1 + n ≤ s.inLen.toNat && s.op.toNat + len ≤ s.outCap.toNat && s.op.toNat < dist

/-- A state where `n` operand bytes, `cap` bytes of capacity and `op` bytes of output are exactly what there is. -/
def exactly (n cap op : Nat) : State :=
  { State.reset with st := .busy, ip := 3, inLen := toWord (4 + n), outCap := toWord cap, op := toWord op }

/-- All four clauses are met, each with not a byte to spare. -/
def meetsMatchRule (n len dist : Nat) : Bool :=
  completes n len dist (exactly n (dist + len) dist) && underruns (n + 1) (exactly n (dist + len) dist) &&
    overflows n len (exactly n (dist + len - 1) dist) && badRefs n len dist (exactly n (dist + len) (dist - 1))

theorem witness_M1sCopiesOrRaises :
    meetsMatchRule 1 ((1 : BitVec 3).toNat + 2) ((0 : BitVec 5).toNat * 256 + (0 : Byte).toNat + 1) = true ∧
    meetsMatchRule 1 ((6 : BitVec 3).toNat + 2) ((31 : BitVec 5).toNat * 256 + (255 : Byte).toNat + 1) = true := by
  decide
theorem witness_M1lCopiesOrRaises :
    meetsMatchRule 2 ((255 : Byte).toNat + 9) ((31 : BitVec 5).toNat * 256 + (255 : Byte).toNat + 1) = true := by decide
theorem witness_M2nsCopiesOrRaises :
    meetsMatchRule 1 ((6 : BitVec 3).toNat + 2) ((31 : BitVec 5).toNat * 256 + (254 : Byte).toNat + 1) = true := by
  decide
theorem witness_M2nlCopiesOrRaises :
    meetsMatchRule (2 + 2) (255 * 2 + (254 : Byte).toNat + 9) ((0 : BitVec 5).toNat * 256 + (0 : Byte).toNat + 1) =
      true := by decide
theorem witness_M2fsCopiesOrRaises :
    meetsMatchRule 3 ((1 : BitVec 3).toNat + 2) ((255 : Byte).toNat * 256 + (255 : Byte).toNat + 8192) = true := by
  decide
theorem witness_M2flCopiesOrRaises :
    meetsMatchRule (1 + 4) (255 * 1 + (0 : Byte).toNat + 9) ((0 : Byte).toNat * 256 + (0 : Byte).toNat + 8192) =
      true := by decide

/-- The hypotheses of the encoding clauses, at the ends of the operands' ranges. -/
theorem witness_encoding_clauses :
    ((1 : BitVec 3) ≠ 0 ∧ (1 : BitVec 3) ≠ 7 ∧ (6 : BitVec 3) ≠ 0 ∧ (6 : BitVec 3) ≠ 7) ∧
    ¬ ((31 : BitVec 5) = 31 ∧ (254 : Byte) = 255) ∧ ¬ ((30 : BitVec 5) = 31 ∧ (255 : Byte) = 255) ∧
    (254 : Byte) ≠ 255 ∧ Dialect.level1 ≠ .first ∧ Dialect.level2 ≠ .first ∧
    (List.replicate 32 (0 : Byte)).length = (31 : BitVec 5).toNat + 1 ∧
    [(0 : Byte)].length = (0 : BitVec 5).toNat + 1 ∧ (3 : Word).toNat % 2 = 1 := by decide

theorem witness_LitCopiesItsBytesOrRaises :
    (∃ (lits : List Byte) (s : State), s.ip.toNat + 1 + lits.length = s.inLen.toNat ∧
      s.op.toNat + lits.length = s.outCap.toNat) ∧
    (∃ (lits : List Byte) (s : State), s.inLen.toNat + 1 = s.ip.toNat + 1 + lits.length) ∧
    (∃ (lits : List Byte) (s : State), s.ip.toNat + 1 + lits.length ≤ s.inLen.toNat ∧
      s.outCap.toNat + 1 = s.op.toNat + lits.length) :=
  ⟨⟨[1, 2], exactly 2 7 5, by decide⟩, ⟨[1, 2], exactly 1 7 5, by decide⟩, ⟨[1, 2], exactly 2 6 5, by decide⟩⟩

theorem witness_HdrSetsTheLevelThenRunsAsLit :
    ((1 : BitVec 3).toNat < 2 ∧ [(0x61 : Byte)].length = (0 : BitVec 5).toNat + 1) ∧
    (decMoves (started [0x5F, 0x61] 64) ∧ (started [0x5F, 0x61] 64).first = true ∧
      restOfStream (started [0x5F, 0x61] 64) = ((2 : BitVec 3) ++ (31 : BitVec 5) : Byte) :: [0x61]) ∧
    (2 : BitVec 3).toNat ≥ 2 ∧ (7 : BitVec 3).toNat ≥ 2 ∧ (0 : BitVec 3).toNat = 0 ∧ (1 : BitVec 3).toNat = 1 := by
  refine ⟨by decide, ⟨⟨rfl, rfl⟩, rfl, by decide⟩, by decide⟩

/-- V2. -/
theorem witness_HdrCompletes :
    (0 : BitVec 3).toNat < 2 ∧ (started [0x00, 0x61] 1).ip.toNat + 1 + [(0x61 : Byte)].length ≤
      (started [0x00, 0x61] 1).inLen.toNat ∧
    (started [0x00, 0x61] 1).op.toNat + [(0x61 : Byte)].length ≤ (started [0x00, 0x61] 1).outCap.toNat := by decide

theorem witness_DeferredReductionIsInvisible :
    ((0xFFF0 : Half).toNat < 65521 ∧ (0xFFF0 : Half).toNat < 65521) ∧
    ∀ b ∈ [List.replicate 5552 (0xFF : Byte), [], [1]], b.length ≤ Config.adlerNmax := by
  refine ⟨by decide, fun b hb => ?_⟩
  simp only [List.mem_cons, List.not_mem_nil, or_false] at hb
  rcases hb with rfl | rfl | rfl
  · exact Nat.le_of_eq List.length_replicate
  · exact Nat.zero_le _
  · decide

/-- R99's example: the halves of `0xFFFFFFFF` are 14 modulo 65521. -/
theorem witness_NonCanonicalSeedCountsReduced :
    [(0 : Byte)] ≠ [] ∧ (0x000E000E : BitVec 32).toNat % 65536 = (0xFFFFFFFF : BitVec 32).toNat % 65536 % 65521 ∧
    (0x000E000E : BitVec 32).toNat / 65536 = (0xFFFFFFFF : BitVec 32).toNat / 65536 % 65521 := by decide

/-- Each clause: `BUSY`; not `BUSY` with the lengths one above the parameters; the lengths at the parameters; length
0. -/
theorem witness_DecStartBeginsOrEndsARun :
    (exactly 1 1 0).st = .busy ∧ State.reset.st ≠ .busy ∧
    (toWord (Config.params.inMax + 1)).toNat > Config.params.inMax ∧
    (toWord (Config.params.outMax + 1)).toNat > Config.params.outMax ∧
    (toWord Config.params.inMax).toNat ≤ Config.params.inMax ∧ toWord Config.params.inMax ≠ 0 ∧
    (toWord Config.params.outMax).toNat ≤ Config.params.outMax ∧ State.reset.inLen = 0 ∧
    State.reset.outCap.toNat ≤ Config.params.outMax := by
  have h1 := Config.inMax_pos
  have h2 := Config.inMax_lt
  have h3 := Config.outMax_lt
  refine ⟨rfl, by decide, ?_, ?_, ?_, ?_, ?_, rfl, Nat.zero_le _⟩
  · rw [toWord, BitVec.toNat_ofNat]; omega
  · rw [toWord, BitVec.toNat_ofNat]; omega
  · rw [toWord, BitVec.toNat_ofNat]; omega
  · intro h
    have := congrArg BitVec.toNat h
    rw [toWord, BitVec.toNat_ofNat] at this
    simp at this; omega
  · rw [toWord, BitVec.toNat_ofNat]; omega

/-- One opcode in each dialect. -/
theorem witness_StepRunsTheDecodedOpcode :
    (∃ s t d i rest, decMoves s ∧ dialectIs s d ∧ decode d (restOfStream s) = .instr i rest ∧ exec i s = .next t ∧
      d = .first) ∧
    (∃ s t d i rest, decMoves s ∧ dialectIs s d ∧ decode d (restOfStream s) = .instr i rest ∧ exec i s = .next t ∧
      d = .level1) ∧
    (∃ s t d i rest, decMoves s ∧ dialectIs s d ∧ decode d (restOfStream s) = .instr i rest ∧ exec i s = .next t ∧
      d = .level2) :=
  ⟨⟨started [0x00, 0x61, 9] 1, _, .first, .hdr 0 [0x61], [9], ⟨rfl, rfl⟩, .inl ⟨rfl, rfl⟩, by decide, rfl, rfl⟩,
    ⟨running false [0x20, 0] 0 [0x61] 64, _, .level1, .m1s 1 0 0, [], ⟨rfl, rfl⟩, .inr (.inl ⟨rfl, rfl, rfl⟩),
      by decide, rfl, rfl⟩,
    ⟨running true [0x20, 0] 0 [0x61] 64, _, .level2, .m2ns 1 0 0, [], ⟨rfl, rfl⟩, .inr (.inr ⟨rfl, rfl, rfl⟩),
      by decide, rfl, rfl⟩⟩

/-- A listed turn of DEC before a host read: in `BUSY` (V8) and in `IDLE`. -/
theorem witness_ListedTurnOfDecIsItsStep :
    (∃ s t, s.inputs = [.dec, .host (.readReg .decStatus)] ∧ s.st = .busy ∧ step s = .next t ∧ t.st = .error) ∧
    (∃ s : State, s.inputs = [.dec, .host (.readReg .decStatus)] ∧ s.st = .idle) :=
  ⟨⟨{ started [0x40, 0x61] 64 with inputs := [.dec, .host (.readReg .decStatus)] }, _, rfl, rfl, rfl, by decide⟩,
    ⟨{ State.reset with inputs := [.dec, .host (.readReg .decStatus)] }, rfl, rfl⟩⟩

theorem witness_StepRunsTheHostCommand :
    (withTurn (.host (.writeReg .adlSum 1)) State.reset).inputs = [.host (.writeReg .adlSum 1)] ∧
    (withTurn (.host (.writeReg .adlData 0x161)) State.reset).inputs = [.host (.writeReg .adlData 0x161)] ∧
    (withTurn (.host (.writeReg .decCmd 3)) State.reset).inputs = [.host (.writeReg .decCmd 3)] ∧
    (3 : Word).toNat % 2 = 1 ∧
    (withTurn (.host (.readReg .adlSum)) State.reset).inputs = [.host (.readReg .adlSum)] := by decide

theorem witness_OnlyTheLevelMarkerIsIllegal :
    (Dialect.first = .first → (0x3F : Byte).toNat < 64) ∧ (Dialect.level2 = .first → (0xFF : Byte).toNat < 64) ∧
    ∀ b ∈ [(0x40 : Byte), 0xFF], let s := started [b] 0
      decMoves s ∧ s.first = true ∧ s.ip.toNat < s.inLen.toNat ∧ (inByte s s.ip.toNat).toNat ≥ 64 := by
  refine ⟨by decide, by decide, fun b hb => ?_⟩
  simp only [List.mem_cons, List.not_mem_nil, or_false] at hb
  rcases hb with rfl | rfl <;> exact ⟨⟨rfl, rfl⟩, by decide⟩

/-- V20 in level 1 and W8 in level 2. -/
theorem witness_CutOffOpcodeRaisesUnderrun :
    (∃ s d i missing, decMoves s ∧ dialectIs s d ∧ d ≠ .first ∧ i.wf = true ∧ i.fits d = true ∧
      restOfStream s ≠ [] ∧ missing ≠ [] ∧ restOfStream s ++ missing = encode i ∧ d = .level1) ∧
    (∃ s d i missing, decMoves s ∧ dialectIs s d ∧ d ≠ .first ∧ i.wf = true ∧ i.fits d = true ∧
      restOfStream s ≠ [] ∧ missing ≠ [] ∧ restOfStream s ++ missing = encode i ∧ d = .level2) :=
  ⟨⟨running false [0x00, 0x61, 0xE0, 0x0B] 2 [0x61] 64, .level1, .m1l 0 0x0B 0, [0], ⟨rfl, rfl⟩,
      .inr (.inl ⟨rfl, rfl, rfl⟩), by decide⟩,
    ⟨running true [0x20, 0x61, 0xE0, 0xFF, 0xFF] 2 [0x61] 1000, .level2, .m2nl 0 2 5 0, [5, 0], ⟨rfl, rfl⟩,
      .inr (.inr ⟨rfl, rfl, rfl⟩), by decide⟩⟩

/-- V7 and W2. -/
theorem witness_CutOffFirstOpcodeRaisesUnderrun :
    ∀ m ∈ [(0 : BitVec 3), 1], let s := started [tagByte m 0] 64
      decMoves s ∧ s.first = true ∧ (Instr.hdr m [0x61]).wf = true ∧ restOfStream s ≠ [] ∧ [(0x61 : Byte)] ≠ [] ∧
      restOfStream s ++ [0x61] = encode (.hdr m [0x61]) := by
  intro m hm
  simp only [List.mem_cons, List.not_mem_nil, or_false] at hm
  rcases hm with rfl | rfl <;> exact ⟨⟨rfl, rfl⟩, by decide⟩

theorem witness_NothingHappensOutsideBusy : State.reset.inputs = [] ∧ State.reset.st ≠ .busy := by decide

/-- One state for each of the four causes (V8, V20, V16, V26), and a first opcode cut off (W2). -/
theorem witness_ErrorsArePrecise :
    ∀ s ∈ [started [0x40, 0x61] 64, running false [0x00, 0x61, 0xE0, 0x0B] 2 [0x61] 64,
        running false [0x00, 0x61, 0xE0, 0xFF, 0x00] 2 [0x61] 264, running false [0x00, 0x61, 0x20, 0x01] 2 [0x61] 64,
        started [0x20] 64],
      decMoves s ∧ ∃ t, step s = .next t ∧ t.st = .error := by
  intro s hs
  simp only [List.mem_cons, List.not_mem_nil, or_false] at hs
  rcases hs with rfl | rfl | rfl | rfl | rfl <;> exact ⟨⟨rfl, rfl⟩, _, rfl, by decide⟩

/-- V10's match; it is also a run that goes on for V11's state with more stream behind it. -/
theorem witness_StepsMoveForward :
    (∃ s t, decMoves s ∧ step s = .next t ∧ t.st ≠ .error ∧ t.st = .done) ∧
    (∃ s t, decMoves s ∧ step s = .next t ∧ t.st ≠ .error ∧ t.st = .busy) :=
  ⟨⟨running false [0x00, 0x61, 0x20, 0x00] 2 [0x61] 64, _, ⟨rfl, rfl⟩, rfl, by decide⟩,
    ⟨running false [0x00, 0x61, 0x20, 0x00, 0x00, 0x62] 2 [0x61] 64, _, ⟨rfl, rfl⟩, rfl, by decide⟩⟩

theorem witness_StreamTouchesOnlyRunState :
    ∃ s t, s.inputs = [] ∧ step s = .next t ∧ t.op ≠ s.op :=
  ⟨running false [0x00, 0x61, 0x20, 0x00] 2 [0x61] 64, _, rfl, rfl, by decide⟩

/-- One state for each clause: RESET; in `BUSY` a host operation, DEC by default, and DEC listed; outside `BUSY` a
start, and a write of `DEC_CMD` with bit 0 clear. -/
theorem witness_OnlyTheseTransitionsOfState :
    (∃ s t, step s = .next t ∧ resetComes s) ∧
    (∃ s t, step s = .next t ∧ ¬ resetComes s ∧ s.st = .busy ∧ hostComes s) ∧
    (∃ s t, step s = .next t ∧ ¬ resetComes s ∧ s.st = .busy ∧ ¬ hostComes s ∧ t.st = .error) ∧
    (∃ s t, step s = .next t ∧ ¬ resetComes s ∧ s.st = .busy ∧ ¬ hostComes s ∧ s.inputs = [.dec] ∧ t.st = .error) ∧
    (∃ s t, step s = .next t ∧ ¬ resetComes s ∧ s.st ≠ .busy ∧ startComes s) ∧
    (∃ s t, step s = .next t ∧ ¬ resetComes s ∧ s.st ≠ .busy ∧ ¬ startComes s ∧
      s.inputs = [.host (.writeReg .decCmd 2)]) :=
  ⟨⟨withTurn .reset (started [0] 0), _, rfl, [], rfl⟩,
    ⟨withTurn (.host (.writeReg .decCmd 1)) (started [0] 0), _, rfl, by simp [resetComes, withTurn], rfl, _, [], rfl⟩,
    ⟨started [0x40] 0, _, rfl, by simp [resetComes, started, running, State.reset], rfl,
      by simp [hostComes, started, running, State.reset], by decide⟩,
    ⟨withTurn .dec (started [0x40] 0), _, rfl, by simp [resetComes, withTurn], rfl, by simp [hostComes, withTurn], rfl,
      by decide⟩,
    ⟨withTurn (.host (.writeReg .decCmd 1)) State.reset, _, rfl, by simp [resetComes, withTurn], by decide, 1, [],
      rfl, by decide⟩,
    ⟨withTurn (.host (.writeReg .decCmd 2)) State.reset, _, rfl, by simp [resetComes, withTurn], by decide,
      by simp [startComes, withTurn], rfl⟩⟩

/-- A state in `ERROR`: V8's end. -/
def failedState : State := raised .level (started [0x40, 0x61] 64)

/-- A write to `IN`, and a write of `DEC_CMD` with bit 0 clear. -/
theorem witness_ErrorHoldsUntilStartOrReset :
    (∃ s t, s.st = .error ∧ step s = .next t ∧ ¬ resetComes s ∧ ¬ startComes s ∧ s.inputs = [.host (.writeIn 0 1)]) ∧
    (∃ s t, s.st = .error ∧ step s = .next t ∧ ¬ resetComes s ∧ ¬ startComes s ∧
      s.inputs = [.host (.writeReg .decCmd 2)]) :=
  ⟨⟨withTurn (.host (.writeIn 0 1)) failedState, _, rfl, rfl, by simp [resetComes, withTurn],
      by simp [startComes, withTurn], rfl⟩,
    ⟨withTurn (.host (.writeReg .decCmd 2)) failedState, _, rfl, rfl, by simp [resetComes, withTurn],
      by simp [startComes, withTurn], rfl⟩⟩

/-- A running state that meets the invariant in front of its last opcode, with a small buffer. -/
def lastOpcode : State := running false [0x00, 0x61, 0x20, 0x00] 2 [0x61] 4

theorem lastOpcode_inv : lastOpcode.Inv ⟨4, 4, true⟩ where
  inWf := by decide
  outWf := by decide
  inAddr := by unfold Memory.below; decide
  outAddr := by unfold Memory.below; decide
  vonlyHardwired := by decide
  busyLengths := by decide
  busyOut := by decide
  busyFirst := by decide
  busyLater := by decide
  busyResult := by decide
  doneResult := by decide
  errorResult := by decide
  idleResult := by decide
  outWritten := by
    intro a ha
    have : a = 0 := by simp [lastOpcode, running] at ha; exact ha
    subst this; decide
  busyExtent := by decide

/-- V10, at the first and the last byte of the output; the buffer is exactly full. -/
theorem witness_DoneOutputIsReadable :
    ∃ p s t, s.Inv p ∧ decMoves s ∧ s.mode = false ∧ step s = .next t ∧ t.st = .done ∧ 0 < t.outLen.toNat ∧
      3 < t.outLen.toNat ∧ t.outLen.toNat = p.outMax :=
  ⟨_, lastOpcode, _, lastOpcode_inv, ⟨rfl, rfl⟩, rfl, rfl, by decide⟩

/-- A run of a one-byte stream right after `DEC_START`, whatever the parameters are. -/
theorem started_inv : (started [0x00] 0).Inv Config.params where
  inWf := by decide
  outWf := by decide
  inAddr := by
    have := Config.inMax_pos
    intro c hc
    simp only [started, running, storeBytes, Memory.write, List.mem_cons, List.not_mem_nil, or_false] at hc
    subst hc; exact this
  outAddr := by intro c hc; cases hc
  vonlyHardwired := by intro h; cases h
  busyLengths := fun _ => ⟨Config.inMax_pos, Nat.zero_le _⟩
  busyOut := by decide
  busyFirst := by decide
  busyLater := by decide
  busyResult := by decide
  doneResult := by decide
  errorResult := by decide
  idleResult := by decide
  outWritten := by intro a ha; exact absurd ha (Nat.not_lt_zero a)
  busyExtent := by decide

theorem witness_EveryStepKeepsTheInvariant : ∃ s t, s.Inv Config.params ∧ step s = .next t ∧ t.st ≠ s.st :=
  ⟨started [0x00] 0, _, started_inv, rfl, by decide⟩

theorem witness_EveryRunEnds : ∃ p s, s.Inv p ∧ decMoves s := ⟨_, lastOpcode, lastOpcode_inv, rfl, rfl⟩

/-- The same run beside another checksum, other bytes beyond `IN_LEN` and above `OP`. -/
def otherSurroundings : State :=
  { lastOpcode with s1 := 7, hostRd := 9, inBuf := lastOpcode.inBuf.write 4 9, outBuf := lastOpcode.outBuf.write 3 9 }

theorem witness_RunDependsOnlyOnItsStream :
    ∃ s t s' t', sameRun s t ∧ s.mode = false ∧ s ≠ t ∧ Sys2Proof.core.run 1 s = .next s' ∧
      Sys2Proof.core.run 1 t = .next t' :=
  ⟨lastOpcode, otherSurroundings, _, _, by unfold sameRun; decide, rfl, by decide, rfl, rfl⟩

theorem witness_ValidateOnlyRunAgrees :
    ∃ s t s' t', s.inputs = [] ∧ t = { s with mode := true } ∧ s.mode = false ∧
      Sys2Proof.core.run 1 s = .next s' ∧ Sys2Proof.core.run 1 t = .next t' ∧ s'.st = .done :=
  ⟨lastOpcode, _, _, _, rfl, rfl, rfl, rfl, rfl, by decide⟩

/-- V2, with the same capacity and with a larger one, writing and not. -/
theorem witness_LargerCapacityKeepsValidity :
    decodeStream [0x00, 0x61] 1 false = .done 1 [0x61] ∧ decodeStream [0x00, 0x61] 1 true = .done 1 [] ∧
    (1 : Word).toNat ≤ (1 : Word).toNat ∧ (1 : Word).toNat ≤ (64 : Word).toNat := by decide

theorem witness_DecodedLengthIsCapacityEnough :
    decodeStream [0x00, 0x61] 64 false = .done 1 [0x61] ∧ decodeStream [] 0 false = .done 0 [] := by decide

/-- The largest near and the smallest far distance need 8192 bytes before them, so here the short ones, at exactly the
capacity. -/
theorem witness_CanonicalStreamsRoundTrip :
    ∀ lv2 ∈ [false, true], let items := [LzItem.lits [0x61], .copy 3 1, .lits [0x62]]
      itemsOk lv2 0 items = true ∧ (canonicalStream lv2 items).length < 2 ^ 64 ∧
        (lzExpand items).length = (5 : Word).toNat := by decide

theorem witness_DecodeOfEncodeIsTheInstruction :
    (Instr.hdr 1 [0x61]).wf = true ∧ (Instr.hdr 1 [0x61]).fits .first = true ∧
    (Instr.m1l 31 255 255).wf = true ∧ (Instr.m1l 31 255 255).fits .level1 = true ∧
    (Instr.m2fl 3 254 255 255).wf = true ∧ (Instr.m2fl 3 254 255 255).fits .level2 = true := by decide

theorem witness_EncodeOfDecodeIsTheBytes :
    decode .level2 [0xFF, 5, 0xFF, 1, 0, 9] = .instr (.m2fl 0 5 1 0) [9] := by decide

/-- Tags at the edges of every row of the map. -/
theorem witness_OpcodeMapByTag :
    decode .level1 [0x1F] = .reject (.truncated none) ∧ decode .level1 [0x00, 9] = .instr (.lit [9]) [] ∧
    decode .level1 [0x20, 0] = .instr (.m1s 1 0 0) [] ∧ decode .level1 [0xDF, 255] = .instr (.m1s 6 31 255) [] ∧
    decode .level1 [0xE0, 255, 0] = .instr (.m1l 0 255 0) [] ∧ decode .level2 [0x00, 9] = .instr (.lit [9]) [] ∧
    decode .level2 [0xDF, 255, 0, 0] = .instr (.m2fs 6 0 0) [] ∧
    decode .level2 [0xDF, 254] = .instr (.m2ns 6 31 254) [] ∧
    decode .level2 [0xDE, 255] = .instr (.m2ns 6 30 255) [] ∧
    decode .level2 [0xE0, 0, 255] = .instr (.m2nl 0 0 0 255) [] ∧
    decode .level2 [0xFF, 255, 0, 254] = .instr (.m2nl 31 1 0 254) [] ∧
    decode .level2 [0xFF, 255, 0, 255, 0, 0] = .instr (.m2fl 1 0 0 0) [] ∧
    decode .first [0x00, 9] = .instr (.hdr 0 [9]) [] ∧ decode .first [0x20, 9] = .instr (.hdr 1 [9]) [] ∧
    (Instr.hdr 1 (List.replicate 32 9)).wf = true := by decide

theorem witness_HostCommandsDecode :
    encodeHost (.adlPush 0xFF) = some (.writeReg .adlData 0xFF) ∧ encodeHost .decStart = some (.writeReg .decCmd 1) ∧
    (Instr.lit [1]).fits .level2 = true := by decide

/-- The ends of the ranges and the near/far threshold. -/
theorem witness_EveryLevelTwoMatchHasOneSpelling :
    (∀ len ∈ [3, 8, 9, 263, 264], 3 ≤ len) ∧ (∀ dist ∈ [1, 8191, 8192, 73727], 1 ≤ dist ∧ dist ≤ 73727) ∧
    lengthAndDistance (.m2ns 1 31 254) = some (3, 8191) ∧ lengthAndDistance (.m2fs 1 0 0) = some (3, 8192) ∧
    lengthAndDistance (.m2fl 0 254 255 255) = some (263, 73727) ∧
    lengthAndDistance (.m2nl 0 1 0 0) = some (264, 1) := by decide

theorem witness_EveryLevelOneMatchHasOneSpelling :
    (∀ len ∈ [3, 8, 9, 264], 3 ≤ len ∧ len ≤ 264) ∧ (∀ dist ∈ [1, 8192], 1 ≤ dist ∧ dist ≤ 8192) ∧
    lengthAndDistance (.m1s 6 31 255) = some (8, 8192) ∧ lengthAndDistance (.m1l 0 255 0) = some (264, 1) := by decide

theorem witness_LevelTwoEmissionIsTheEncoding :
    ∃ len dist i, 3 ≤ len ∧ 1 ≤ dist ∧ dist ≤ 73727 ∧ i.wf = true ∧ i.fits .level2 = true ∧
      lengthAndDistance i = some (len, dist) :=
  ⟨264, 8192, .m2fl 1 0 0 0, by decide⟩

/-! ### The host's side -/

theorem witness_RegisterReadsReturnTheTable :
    ∀ r ∈ [HostReg.adlSum, .adlData, .decCmd, .decMode, .decInLen, .decOutCap, .decStatus, .decOutLen, .decErrIp,
      .decErrOp, .decIp, .decOp], (withTurn (.host (.readReg r)) failedState).inputs = [.host (.readReg r)] := by
  decide

theorem witness_RegisterWritesLoad :
    ∀ r ∈ [HostReg.decMode, .decInLen, .decOutCap], let s := withTurn (.host (.writeReg r 3)) State.reset
      s.st ≠ .busy ∧ s.inputs = [.host (.writeReg r 3)] := by decide

theorem witness_BusyGateIgnoresWrites :
    ∀ h ∈ [HostOp.writeIn 0 1, .writeReg .decInLen 1, .writeReg .decOutCap 1, .writeReg .decMode 1,
        .writeReg .decCmd 1],
      (withTurn (.host h) lastOpcode).st = .busy ∧ (withTurn (.host h) lastOpcode).inputs = [.host h] := by decide

theorem witness_ReadOnlyWritesDoNothing :
    (∀ h ∈ [HostOp.writeOut 0 1, .writeReg .decCmd 2, .writeReg .decStatus 1, .writeReg .decOutLen 1,
        .writeReg .decErrIp 1, .writeReg .decErrOp 1, .writeReg .decIp 1, .writeReg .decOp 1],
      (withTurn (.host h) lastOpcode).inputs = [.host h]) ∧ (2 : Word).toNat % 2 = 0 := by decide

/-- The last byte of `IN` and the first offset past it. -/
theorem witness_InWindowWritesOneByte :
    State.reset.st ≠ .busy ∧
    (∃ (a : Nat) (s : State), a + 1 = Config.params.inMax ∧ s.st ≠ .busy ∧ s.inputs = [.host (.writeIn a 1)]) ∧
    (∃ (a : Nat) (s : State), a = Config.params.inMax ∧ s.st ≠ .busy ∧ s.inputs = [.host (.writeIn a 1)]) :=
  ⟨by decide,
    ⟨Config.params.inMax - 1, withTurn (.host (.writeIn (Config.params.inMax - 1) 1)) State.reset,
      Nat.sub_add_cancel Config.inMax_pos, by decide, rfl⟩,
    ⟨Config.params.inMax, withTurn (.host (.writeIn Config.params.inMax 1)) State.reset, rfl, by decide, rfl⟩⟩

theorem witness_InWindowReadsTheBuffer :
    (∃ (a : Nat) (s : State), a + 1 = Config.params.inMax ∧ s.inputs = [.host (.readIn a)]) ∧
    (∃ (a : Nat) (s : State), a = Config.params.inMax ∧ s.inputs = [.host (.readIn a)]) :=
  ⟨⟨Config.params.inMax - 1, withTurn (.host (.readIn (Config.params.inMax - 1))) State.reset,
      Nat.sub_add_cancel Config.inMax_pos, rfl⟩,
    ⟨Config.params.inMax, withTurn (.host (.readIn Config.params.inMax)) State.reset, rfl, rfl⟩⟩

theorem witness_OutWindowReadsTheOutput :
    (∃ (p : Config.Params) (s : State) (a : Nat), a < p.outMax ∧ a + 1 = s.outExtent) ∧
    (∃ (p : Config.Params) (a : Nat), p.outMax = a) :=
  ⟨⟨⟨4, 4, true⟩, lastOpcode, 0, by decide⟩, ⟨⟨4, 4, true⟩, 4, by decide⟩⟩

theorem witness_StepCarriesOutTheHostAccess :
    ∀ h ∈ [HostOp.readOut 0, .readIn 0, .writeIn 0 1, .writeReg .decInLen 5, .writeReg .decCmd 2, .readReg .decStatus],
      (withTurn (.host h) State.reset).inputs = [.host h] ∧ decodeHost h = none := by decide

theorem witness_ResetFromAnyState : (withTurn .reset lastOpcode).inputs = [.reset] := by decide

end Sys2Proof.Tests
end

section
/-! SUPPORT. What a turn of the host is: a command run as an instruction or an access (spec/10_state.md R21), what each
access does, and the numbers a read returns. -/

namespace Sys2Proof.Machine

open Sys2Proof.Claim

/-! ### Words -/

theorem word_getLsbD_zero (v : Word) : v.getLsbD 0 = decide (v.toNat % 2 = 1) := Nat.testBit_zero v.toNat

/-- Zero-extension to the width of a host read keeps the number (R28). -/
theorem toNat_setWidth_word {n : Nat} (h : n ≤ 64) (x : BitVec n) : (x.setWidth 64).toNat = x.toNat :=
  BitVec.toNat_setWidth_of_le h

/-! ### Commands and accesses -/

/-- `DEC_CMD` is the start command exactly when bit 0 of the written value is set (R111). -/
theorem decodeHost_decCmd (v : Word) :
    decodeHost (.writeReg .decCmd v) = if v.toNat % 2 = 1 then some .decStart else none := by
  simp only [decodeHost, word_getLsbD_zero, decide_eq_true_eq]

/-- A host operation is `DEC_START`, one of the three commands of the checksum unit, or an access (R21). -/
theorem decodeHost_cases (h : HostOp) :
    (decodeHost h = some .decStart ∧ ∃ v : Word, h = .writeReg .decCmd v ∧ v.toNat % 2 = 1) ∨
    (∃ v, decodeHost h = some (.adlLoad v)) ∨ (∃ b, decodeHost h = some (.adlPush b)) ∨
    decodeHost h = some .adlRead ∨ decodeHost h = none := by
  cases h with
  | writeReg r v =>
    cases r with
    | adlSum => exact .inr (.inl ⟨_, rfl⟩)
    | adlData => exact .inr (.inr (.inl ⟨_, rfl⟩))
    | decCmd =>
      rw [decodeHost_decCmd]
      split
      · exact .inl ⟨rfl, v, rfl, ‹_›⟩
      · simp
    | _ => simp [decodeHost]
  | readReg r => cases r <;> simp [decodeHost]
  | _ => simp [decodeHost]

theorem hostTurn_of_command {h : HostOp} {i : Instr} (hd : decodeHost h = some i) (s : State) :
    hostTurn h s = exec i s := by simp only [hostTurn, hd]

theorem hostTurn_of_access {h : HostOp} (hd : decodeHost h = none) (s : State) :
    hostTurn h s = .next (hostAccess Config.params h s) := by simp only [hostTurn, hd]

theorem step_of_command {s : State} {h : HostOp} {rest : List Input} (hin : s.inputs = .host h :: rest) {i : Instr}
    (hd : decodeHost h = some i) : step s = exec i { s with inputs := rest } :=
  (step_of_input hin).trans (hostTurn_of_command hd _)

theorem step_of_access {s : State} {h : HostOp} {rest : List Input} (hin : s.inputs = .host h :: rest)
    (hd : decodeHost h = none) : step s = .next (hostAccess Config.params h { s with inputs := rest }) :=
  (step_of_input hin).trans (hostTurn_of_access hd _)

/-! ### Reads -/

/-- `DEC_STATUS` as a sum of its fields (R22). -/
theorem statusWord_toNat (s : State) :
    (statusWord s).toNat =
      (stateNumber s.st).toNat + 4 * s.lv2.toNat + 8 * s.first.toNat + 16 * (errNumber s.errCode).toNat := by
  unfold statusWord
  generalize stateNumber s.st = n, errNumber s.errCode = e
  cases s.first <;> cases s.lv2 <;> revert n e <;> decide

/-- A register reads as the number of the table (R21, R22). -/
theorem regValue_toNat (s : State) (r : HostReg) : (regValue s r).toNat = registerReads s r := by
  cases r with
  | adlSum => exact (toNat_setWidth_word (by decide) _).trans (checksum_toNat s)
  | decMode => exact (toNat_setWidth_word (by decide) _).trans (BitVec.toNat_ofBool s.mode)
  | decStatus =>
    refine (toNat_setWidth_word (by decide) _).trans ((statusWord_toNat s).trans ?_)
    simp only [registerReads]
    cases s.st <;> cases s.errCode <;> rfl
  | _ => rfl

/-- The turns to come are in no register. -/
theorem regValue_withInputs (s : State) (rest : List Input) (r : HostReg) :
    regValue { s with inputs := rest } r = regValue s r := by cases r <;> rfl

/-- `ADL_READ` included, a read of a register puts its value into the host's hand and does nothing else (R21, R94). -/
theorem step_of_readReg {s : State} {r : HostReg} {rest : List Input} (hin : s.inputs = .host (.readReg r) :: rest) :
    step s = .next { s with inputs := rest, hostRd := regValue s r } := by
  rw [← regValue_withInputs s rest r]
  cases r with
  | adlSum => exact step_of_command hin rfl
  | _ => exact step_of_access hin rfl

theorem readInWindow_of_lt {p : Config.Params} {a : Nat} (h : a < p.inMax) (s : State) :
    readInWindow p s a = inByte s a := if_pos h

theorem readInWindow_of_le {p : Config.Params} {a : Nat} (h : p.inMax ≤ a) (s : State) :
    readInWindow p s a = 0 := if_neg (Nat.not_lt.2 h)

theorem readOutWindow_of_lt {p : Config.Params} {s : State} {a : Nat} (h : a < p.outMax) (he : a < s.outExtent) :
    readOutWindow p s a = outByte s a := by simp only [readOutWindow, if_pos h, if_pos he]

theorem readOutWindow_of_le {p : Config.Params} {a : Nat} (h : p.outMax ≤ a) (s : State) :
    readOutWindow p s a = 0 := if_neg (Nat.not_lt.2 h)

/-! ### Writes -/

theorem step_of_writeReg {s : State} {r : HostReg} {v : Word} {rest : List Input}
    (hin : s.inputs = .host (.writeReg r v) :: rest) (hd : decodeHost (.writeReg r v) = none) :
    step s = .next (writeReg Config.params r v { s with inputs := rest }) := step_of_access hin hd

theorem inByte_write_same (s : State) (a : Nat) (b : Byte) (rest : List Input) :
    inByte { s with inputs := rest, inBuf := s.inBuf.write a b } a = b := by
  simp only [inByte, lookup_write_same, Option.getD_some]

theorem inByte_write_of_ne (s : State) {a x : Nat} (b : Byte) (rest : List Input) (h : x ≠ a) :
    inByte { s with inputs := rest, inBuf := s.inBuf.write a b } x = inByte s x := by
  simp only [inByte, lookup_write_of_ne _ _ h]

theorem writeInWindow_of_lt {p : Config.Params} {a : Nat} (h : a < p.inMax) {s : State} (hb : s.st ≠ .busy)
    (b : Byte) : writeInWindow p a b s = { s with inBuf := s.inBuf.write a b } := if_pos ⟨h, hb⟩

theorem writeInWindow_of_le {p : Config.Params} {a : Nat} (h : p.inMax ≤ a) (b : Byte) (s : State) :
    writeInWindow p a b s = s := if_neg fun hc => Nat.not_lt.2 h hc.1

/-- Outside `BUSY` each of the three loaders takes its value (R21, R19, R20). -/
theorem writeReg_decMode {s : State} (hb : s.st ≠ .busy) (p : Config.Params) (v : Word) :
    writeReg p .decMode v s = { s with mode := v.getLsbD 0 && p.hasVonly } := if_neg hb

theorem writeReg_decInLen {s : State} (hb : s.st ≠ .busy) (p : Config.Params) (v : Word) :
    writeReg p .decInLen v s = { s with inLen := v } := if_neg hb

theorem writeReg_decOutCap {s : State} (hb : s.st ≠ .busy) (p : Config.Params) (v : Word) :
    writeReg p .decOutCap v s = { s with outCap := v } := if_neg hb

end Sys2Proof.Machine
end

section
/-! SUPPORT. What each agent's turn does to `STATE` (spec/10_state.md R17), and that a turn of DEC does not look at the
turns to come. -/

namespace Sys2Proof.Machine

open Sys2Proof.Claim

/-! ### The turns to come are nothing to DEC -/

theorem stopRule_withInputs (s : State) (r : List Input) :
    stopRule { s with inputs := r } = { stopRule s with inputs := r } := ite_withInputs rfl rfl

theorem fetchError_withInputs (e : DecodeReject) (s : State) (r : List Input) :
    fetchError e { s with inputs := r } = { fetchError e s with inputs := r } := by
  cases e with
  | truncated m => cases m <;> rfl
  | _ => rfl

/-- A turn of DEC does the same whatever turns are to come, and leaves them as they are. -/
theorem decTurn_withInputs (s : State) (r : List Input) :
    decTurn { s with inputs := r } = mapNext (fun t => { t with inputs := r }) (decTurn s) := by
  rcases decTurn_cases s with ⟨hb, e⟩ | ⟨hb, i, rest, t, hd, hx, e⟩ | ⟨hb, c, hd, e⟩
  · rw [e]; exact decTurn_of_not_busy hb
  · have hx' : exec i { s with inputs := r } = .next { t with inputs := r } := by rw [exec_withInputs, hx]; rfl
    rw [e, decTurn_of_instr (s := { s with inputs := r }) hb hd, hx']
    exact congrArg Host.Outcome.next (stopRule_withInputs t r)
  · rw [e, decTurn_of_reject (s := { s with inputs := r }) hb hd]
    exact congrArg Host.Outcome.next (fetchError_withInputs c s r)

/-- A step that is neither RESET's nor the host's is DEC's (R10). -/
theorem step_of_dec_turn {s : State} (hreset : ¬ resetComes s) (hhost : ¬ hostComes s) :
    ∃ rest, step s = decTurn { s with inputs := rest } := by
  cases hin : s.inputs with
  | nil => exact ⟨[], by rw [step_of_no_input hin, ← hin]⟩
  | cons e rest =>
    cases e with
    | host h => exact absurd ⟨h, rest, hin⟩ hhost
    | dec => exact ⟨rest, step_of_input hin⟩
    | reset => exact absurd ⟨rest, hin⟩ hreset

/-! ### `STATE` after a turn of DEC -/

theorem literalRun_st (lits : List Byte) (s : State) :
    (literalRun lits s).st = s.st ∨ (literalRun lits s).st = .error := by
  rcases literalRun_cases lits s with ⟨-, e⟩ | ⟨-, -, e⟩ | ⟨-, -, e⟩ <;> simp [e]

theorem matchCopy_st {n : Nat} (hn : 0 < n) (len dist : Nat) (s : State) :
    (matchCopy n len dist s).st = s.st ∨ (matchCopy n len dist s).st = .error := by
  rcases matchCopy_cases hn len dist s with ⟨-, e⟩ | ⟨-, -, e⟩ | ⟨-, -, -, e⟩ | ⟨-, -, -, e⟩ <;> simp [e]

/-- An instruction in `BUSY` keeps running or raises. -/
theorem exec_st_of_busy {i : Instr} {s t : State} (hb : s.st = .busy) (h : exec i s = .next t) :
    t.st = .busy ∨ t.st = .error := by
  rw [← hb]
  cases i with
  | hdr m lits =>
    cases h
    split
    · exact .inr rfl
    · exact literalRun_st lits (setLevel m s)
  | lit lits => cases h; exact literalRun_st lits s
  | m1s l hi lo => cases h; exact matchCopy_st (by omega) _ _ s
  | m1l hi ext lo => cases h; exact matchCopy_st (by omega) _ _ s
  | m2ns l hi lo => cases h; exact matchCopy_st (by omega) _ _ s
  | m2nl hi k c lo => cases h; exact matchCopy_st (by omega) _ _ s
  | m2fs l exhi exlo => cases h; exact matchCopy_st (by omega) _ _ s
  | m2fl k c exhi exlo => cases h; exact matchCopy_st (by omega) _ _ s
  | adlLoad v => cases h; exact .inl rfl
  | adlPush b => cases h; exact .inl rfl
  | adlRead => cases h; exact .inl rfl
  | decStart => cases h; rw [if_pos hb]; exact .inl rfl

/-- The stop rule turns `BUSY` into `DONE` or leaves `STATE` (R117). -/
theorem stopRule_st (s : State) : (stopRule s).st = s.st ∨ (stopRule s).st = .done := by
  rcases stopRule_cases s with ⟨-, -, e⟩ | ⟨-, e⟩
  · exact .inr (by rw [e])
  · exact .inl (by rw [e])

theorem fetchError_st (r : DecodeReject) (s : State) : (fetchError r s).st = .error := by
  obtain ⟨code, u, e, -, -⟩ := fetchError_cases r s
  rw [e, raiseDecodeError_st]

theorem decTurn_st_of_not_busy {s t : State} (hb : s.st ≠ .busy) (h : decTurn s = .next t) : t.st = s.st := by
  cases (decTurn_of_not_busy hb).symm.trans h; rfl

theorem decTurn_st_of_busy {s t : State} (hb : s.st = .busy) (h : decTurn s = .next t) :
    t.st = .busy ∨ t.st = .done ∨ t.st = .error := by
  rcases decTurn_cases s with ⟨hn, -⟩ | ⟨-, i, rest, u, -, hx, e⟩ | ⟨-, r, -, e⟩
  · exact absurd hb hn
  · cases e.symm.trans h
    rcases stopRule_st u with e | e
    · rw [e]; exact (exec_st_of_busy hb hx).imp_right .inr
    · exact .inr (.inl e)
  · cases e.symm.trans h
    exact .inr (.inr (fetchError_st r s))

/-! ### `STATE` after a turn of the host -/

/-- A start ends in a run or at once (R111). -/
theorem startRun_st (p : Config.Params) (s : State) :
    (startRun p s).st = .busy ∨ (startRun p s).st = .done ∨ (startRun p s).st = .error := by
  rcases startRun_cases p s with ⟨-, e⟩ | ⟨-, -, -, e⟩ | ⟨-, -, -, e⟩ <;> simp [e]

@[simp] theorem writeReg_st (p : Config.Params) (r : HostReg) (v : Word) (s : State) :
    (writeReg p r v s).st = s.st := by
  cases r with
  | decMode | decInLen | decOutCap => simp only [writeReg]; split <;> rfl
  | _ => rfl

@[simp] theorem writeInWindow_st (p : Config.Params) (a : Nat) (b : Byte) (s : State) :
    (writeInWindow p a b s).st = s.st := by unfold writeInWindow; split <;> rfl

/-- No access changes `STATE`. -/
@[simp] theorem hostAccess_st (p : Config.Params) (h : HostOp) (s : State) : (hostAccess p h s).st = s.st := by
  cases h with
  | writeReg r v => exact writeReg_st p r v s
  | writeIn a b => exact writeInWindow_st p a b s
  | _ => rfl

theorem execDecStart_of_busy {s : State} (hb : s.st = .busy) : execDecStart s = .next s :=
  congrArg Host.Outcome.next (if_pos hb)

theorem execDecStart_of_not_busy {s : State} (hb : s.st ≠ .busy) :
    execDecStart s = .next (startRun Config.params s) := congrArg Host.Outcome.next (if_neg hb)

/-- Only a start outside `BUSY` changes `STATE` in a turn of the host (R17). -/
theorem step_st_of_host {s t : State} {h : HostOp} {rest : List Input} (hin : s.inputs = .host h :: rest)
    (hstep : step s = .next t) (hs : s.st = .busy ∨ ∀ v : Word, h = .writeReg .decCmd v → v.toNat % 2 ≠ 1) :
    t.st = s.st := by
  rcases decodeHost_cases h with ⟨hd, v, hv, hodd⟩ | ⟨v, hd⟩ | ⟨b, hd⟩ | hd | hd
  · have hb : s.st = .busy := hs.resolve_right fun hn => hn v hv hodd
    have hkeep : step s = .next { s with inputs := rest } := (step_of_command hin hd).trans (execDecStart_of_busy hb)
    cases hkeep.symm.trans hstep; rfl
  · cases (step_of_command hin hd).symm.trans hstep; rfl
  · cases (step_of_command hin hd).symm.trans hstep; rfl
  · cases (step_of_command hin hd).symm.trans hstep; rfl
  · cases (step_of_access hin hd).symm.trans hstep; exact hostAccess_st _ h _

end Sys2Proof.Machine
end

section
/-! PROOFS. The statements of spec/10_state.md: the state after reset, the host's side, and the transitions of
`STATE`. -/

namespace Sys2Proof.Proofs

open Sys2Proof.Machine Sys2Proof.Claim

/-! ### Reset -/

/-- Settles O57: R27's table against the reset state, register by register. -/
theorem resetStateRegisters : Obligations.ResetStateRegisters :=
  ⟨rfl, rfl, rfl, rfl, rfl, rfl, rfl, rfl, rfl, rfl, rfl, rfl, rfl, rfl⟩

/-- Settles O33: both buffers are empty, no byte counts as output, and `STATE` is `IDLE`, with every result clear. -/
theorem resetMeetsTheInvariant : Obligations.ResetMeetsTheInvariant := fun _ =>
  { inWf := .nil
    outWf := .nil
    inAddr := nofun
    outAddr := nofun
    vonlyHardwired := nofun
    busyLengths := nofun
    busyOut := nofun
    busyFirst := nofun
    busyLater := nofun
    busyResult := nofun
    doneResult := nofun
    errorResult := nofun
    idleResult := fun _ => ⟨rfl, rfl, rfl, rfl, rfl, rfl⟩
    outWritten := nofun
    busyExtent := nofun }

/-! ### The host's side -/

/-- Settles O21: each of the four operations decodes to its command, which is what the step runs. -/
theorem stepRunsTheHostCommand : Obligations.StepRunsTheHostCommand := by
  intro s rest v
  refine ⟨fun h => ?_, fun h => ?_, fun h hodd => ?_, fun h => step_of_command h rfl⟩
  · rw [BitVec.ofNat_toNat]; exact step_of_command h rfl
  · rw [BitVec.ofNat_toNat]; exact step_of_command h rfl
  · exact step_of_command h ((decodeHost_decCmd v).trans (if_pos hodd))

/-- Settles O55: an operation that decodes to no command is an access. -/
theorem stepCarriesOutTheHostAccess : Obligations.StepCarriesOutTheHostAccess :=
  fun _ _ _ => step_of_access

/-- Settles O48: a read of any register answers its value, whose number is the table's. -/
theorem registerReadsReturnTheTable : Obligations.RegisterReadsReturnTheTable :=
  fun s r _ hin => ⟨_, step_of_readReg hin, regValue_toNat s r, rfl⟩

/-- Settles O49: outside `BUSY` each loader takes the value, `MODE` its bit 0 where the mode exists. -/
theorem registerWritesLoad : Obligations.RegisterWritesLoad := by
  intro s v rest hb
  refine ⟨fun h => ?_, fun h => ?_, fun h => ?_⟩
  · rw [step_of_writeReg h rfl, writeReg_decMode, word_getLsbD_zero]; exact hb
  · rw [step_of_writeReg h rfl, writeReg_decInLen]; exact hb
  · rw [step_of_writeReg h rfl, writeReg_decOutCap]; exact hb

/-- Settles O51: each of these writes is an access, and as an access it does nothing. -/
theorem readOnlyWritesDoNothing : Obligations.ReadOnlyWritesDoNothing := by
  rintro s h rest hin (⟨a, b, rfl⟩ | ⟨v, rfl, heven⟩ | ⟨r, v, rfl, hr⟩)
  · exact step_of_access hin rfl
  · exact step_of_access hin ((decodeHost_decCmd v).trans (if_neg (by omega)))
  · rcases hr with rfl | rfl | rfl | rfl | rfl | rfl <;> exact step_of_access hin rfl

/-- Settles O52: below `IN_MAX` the write is one write of the buffer, at or beyond it nothing. -/
theorem inWindowWritesOneByte : Obligations.InWindowWritesOneByte := by
  intro s a b rest hb hin
  have hstep := step_of_access hin rfl
  constructor
  · intro ha
    refine ⟨{ s with inputs := rest, inBuf := s.inBuf.write a b }, ?_, inByte_write_same s a b rest,
      fun x hx => inByte_write_of_ne s b rest hx, rfl⟩
    exact hstep.trans (congrArg _ (writeInWindow_of_lt ha (s := { s with inputs := rest }) hb b))
  · exact fun ha => hstep.trans (congrArg _ (writeInWindow_of_le ha b _))

/-- Settles O53: the read answers what the window shows, the byte below `IN_MAX` and 0 from there on. -/
theorem inWindowReadsTheBuffer : Obligations.InWindowReadsTheBuffer := by
  intro s a rest hin
  refine ⟨_, step_of_access hin rfl, fun ha => ?_, fun ha => ?_, rfl⟩
  · simp only [hostAccess, readInWindow_of_lt ha]; exact toNat_setWidth_word (by decide) _
  · simp only [hostAccess, readInWindow_of_le ha]; rfl

/-- Settles O54: the read answers what the window shows, the run's byte below `outExtent` and 0 past the buffer. -/
theorem outWindowReadsTheOutput : Obligations.OutWindowReadsTheOutput := by
  intro p s a
  refine ⟨_, rfl, fun ha he => ?_, fun ha => ?_, rfl⟩
  · simp only [hostAccess, readOutWindow_of_lt ha he]; exact toNat_setWidth_word (by decide) _
  · simp only [hostAccess, readOutWindow_of_le ha]; rfl

/-! ### Whose turn it is, and `STATE` -/

/-- Settles O58: DEC's turn does not look at the turns to come, so it is the same turn with none listed. -/
theorem listedTurnOfDecIsItsStep : Obligations.ListedTurnOfDecIsItsStep := by
  intro s rest hin
  obtain ⟨t, ht⟩ : ∃ t, decTurn s = .next t := turn_answers .dec s
  refine ⟨{ t with inputs := [] }, ?_, rfl, ?_⟩
  · rw [step_of_no_input rfl, decTurn_withInputs, ht]; rfl
  · rw [step_of_input hin]
    exact (decTurn_withInputs s rest).trans (congrArg _ ht)

/-- Settles O29: by whose turn it is. Only RESET, a turn of DEC in `BUSY` and a start outside it can change `STATE`. -/
theorem onlyTheseTransitionsOfState : Obligations.OnlyTheseTransitionsOfState := by
  intro s t hstep
  constructor
  · rintro ⟨rest, hin⟩
    cases (step_of_input hin).symm.trans hstep; rfl
  intro hreset
  refine ⟨?busyHost, ?busyDec, ?start, ?other⟩
  case busyHost =>
    rintro hb ⟨h, rest, hin⟩
    exact (step_st_of_host hin hstep (.inl hb)).trans hb
  case busyDec =>
    intro hb hhost
    obtain ⟨rest, hdec⟩ := step_of_dec_turn hreset hhost
    exact decTurn_st_of_busy (s := { s with inputs := rest }) hb (hdec.symm.trans hstep)
  case start =>
    rintro hb ⟨v, rest, hin, hodd⟩
    have hrun : step s = .next (startRun Config.params { s with inputs := rest }) :=
      (step_of_command hin ((decodeHost_decCmd v).trans (if_pos hodd))).trans (execDecStart_of_not_busy hb)
    cases hrun.symm.trans hstep
    exact startRun_st _ _
  case other =>
    intro hb hstart
    by_cases hhost : hostComes s
    · obtain ⟨h, rest, hin⟩ := hhost
      exact step_st_of_host hin hstep (.inr fun v hv hodd => hstart ⟨v, rest, hv ▸ hin, hodd⟩)
    · obtain ⟨rest, hdec⟩ := step_of_dec_turn hreset hhost
      exact decTurn_st_of_not_busy (s := { s with inputs := rest }) hb (hdec.symm.trans hstep)

end Sys2Proof.Proofs
end

section
/-! SUPPORT. The output of a normal run stays the bytes below `OP`, within the capacity, in every turn of DEC
(spec/20_memory.md R46, spec/45_validator.md R182), and `DONE` takes its length from `OP` (spec/41_decoder_control.md
R117). -/

namespace Sys2Proof.Machine

/-- The output of a normal run is exactly the bytes below `OP`, and they lie in the capacity and so in the buffer. -/
structure OutputBelowOp (p : Config.Params) (s : State) : Prop where
  normal : s.mode = false
  extent : s.outExtent = s.op.toNat
  fits : s.op.toNat ≤ s.outCap.toNat
  room : s.outCap.toNat ≤ p.outMax

variable {p : Config.Params} {s t : State}

theorem State.Inv.outputBelowOp (h : s.Inv p) (hb : s.st = .busy) (hm : s.mode = false) : OutputBelowOp p s :=
  ⟨hm, h.busyExtent hb hm, h.busyOut hb, (h.busyLengths hb).2⟩

namespace OutputBelowOp

theorem setLevel (h : OutputBelowOp p s) (m : BitVec 3) : OutputBelowOp p (setLevel m s) :=
  ⟨h.normal, h.extent, h.fits, h.room⟩

theorem raiseDecodeError (h : OutputBelowOp p s) (c : ErrCode) (a : Word) :
    OutputBelowOp p (raiseDecodeError c a s) := ⟨h.normal, h.extent, h.fits, h.room⟩

/-- An opcode that completes writes up to where it moves `OP`. -/
theorem advance_putOut (h : OutputBelowOp p s) (n : Nat) (m : Memory) {len : Nat}
    (hfit : s.op.toNat + len ≤ s.outCap.toNat) : OutputBelowOp p (advance n len (putOut m len s)) := by
  have hop : (advance n len (putOut m len s)).op.toNat = s.op.toNat + len := by simp [toWord_toNat hfit]
  refine ⟨by simp [h.normal], ?extent, ?fits, by simpa using h.room⟩
  case extent => rw [hop]; simp [h.normal]
  case fits => rw [hop]; simpa using hfit

theorem literalRun (h : OutputBelowOp p s) (lits : List Byte) : OutputBelowOp p (literalRun lits s) := by
  rcases literalRun_cases lits s with ⟨-, e⟩ | ⟨-, -, e⟩ | ⟨-, hfit, e⟩
  · rw [e]; exact h.raiseDecodeError _ _
  · rw [e]; exact h.raiseDecodeError _ _
  · rw [e]; exact h.advance_putOut _ _ hfit

theorem matchCopy (h : OutputBelowOp p s) {n : Nat} (hn : 0 < n) (len dist : Nat) :
    OutputBelowOp p (matchCopy n len dist s) := by
  rcases matchCopy_cases hn len dist s with ⟨-, e⟩ | ⟨-, -, e⟩ | ⟨-, -, -, e⟩ | ⟨-, hfit, -, e⟩
  · rw [e]; exact h.raiseDecodeError _ _
  · rw [e]; exact h.raiseDecodeError _ _
  · rw [e]; exact h.raiseDecodeError _ _
  · rw [e]; exact h.advance_putOut _ _ hfit

/-- Every instruction in `BUSY` keeps it; a start is ignored there (R247). -/
theorem exec (h : OutputBelowOp p s) (hb : s.st = .busy) {i : Instr} (hx : exec i s = .next t) :
    OutputBelowOp p t := by
  cases i with
  | hdr m lits =>
    cases hx
    split
    · exact h.raiseDecodeError _ _
    · exact (h.setLevel m).literalRun lits
  | lit lits => cases hx; exact h.literalRun lits
  | m1s l hi lo => cases hx; exact h.matchCopy (by omega) _ _
  | m1l hi ext lo => cases hx; exact h.matchCopy (by omega) _ _
  | m2ns l hi lo => cases hx; exact h.matchCopy (by omega) _ _
  | m2nl hi k c lo => cases hx; exact h.matchCopy (by omega) _ _
  | m2fs l exhi exlo => cases hx; exact h.matchCopy (by omega) _ _
  | m2fl k c exhi exlo => cases hx; exact h.matchCopy (by omega) _ _
  | adlLoad v => cases hx; exact ⟨h.normal, h.extent, h.fits, h.room⟩
  | adlPush b => cases hx; exact ⟨h.normal, h.extent, h.fits, h.room⟩
  | adlRead => cases hx; exact ⟨h.normal, h.extent, h.fits, h.room⟩
  | decStart => cases (execDecStart_of_busy hb).symm.trans hx; exact h

theorem stopRule (h : OutputBelowOp p s) : OutputBelowOp p (stopRule s) := by
  rcases stopRule_cases s with ⟨-, -, e⟩ | ⟨-, e⟩
  · rw [e]; exact ⟨h.normal, h.extent, h.fits, h.room⟩
  · rw [e]; exact h

theorem fetchError (h : OutputBelowOp p s) (r : DecodeReject) : OutputBelowOp p (fetchError r s) := by
  obtain ⟨code, u, e, -, rfl | ⟨m, rfl⟩⟩ := fetchError_cases r s
  · rw [e]; exact h.raiseDecodeError _ _
  · rw [e]; exact (h.setLevel m).raiseDecodeError _ _

theorem decTurn (h : OutputBelowOp p s) (hstep : decTurn s = .next t) : OutputBelowOp p t := by
  rcases decTurn_cases s with ⟨-, e⟩ | ⟨hb, i, rest, u, -, hx, e⟩ | ⟨-, r, -, e⟩
  · cases e.symm.trans hstep; exact h
  · cases e.symm.trans hstep; exact (h.exec hb hx).stopRule
  · cases e.symm.trans hstep; exact h.fetchError r

/-- The host sees each byte of such an output where it lies (R46). -/
theorem readOutWindow_eq (h : OutputBelowOp p s) {a : Nat} (ha : a < s.op.toNat) :
    a < p.outMax ∧ readOutWindow p s a = outByte s a := by
  have hmax : a < p.outMax := ha.trans_le (h.fits.trans h.room)
  exact ⟨hmax, readOutWindow_of_lt hmax (h.extent ▸ ha)⟩

end OutputBelowOp

/-- A turn of DEC that ends a run well does it by the stop rule, so `OUT_LEN` is `OP` (R117). -/
theorem decTurn_outLen_of_done (hb : s.st = .busy) (hstep : decTurn s = .next t) (hd : t.st = .done) :
    t.outLen = t.op := by
  rcases decTurn_cases s with ⟨hn, -⟩ | ⟨-, i, rest, u, -, hx, e⟩ | ⟨-, r, -, e⟩
  · exact absurd hb hn
  · cases e.symm.trans hstep
    rcases stopRule_cases u with ⟨-, -, e⟩ | ⟨-, e⟩
    · rw [e]
    · rw [e] at hd
      rcases exec_st_of_busy hb hx with hu | hu <;> exact absurd (hd.symm.trans hu) (by decide)
  · cases e.symm.trans hstep
    exact absurd (hd.symm.trans (fetchError_st r s)) (by decide)

end Sys2Proof.Machine
end

section
/-! PROOFS. The statement of spec/20_memory.md: what the host reads of `OUT` after a run. -/

namespace Sys2Proof.Proofs

open Sys2Proof.Machine

/-- Settles O31: the last turn keeps the output at the bytes below `OP`, in the buffer, and `DONE` sets `OUT_LEN` to
`OP`, so the window shows each of these bytes. -/
theorem doneOutputIsReadable : Obligations.DoneOutputIsReadable := by
  intro p s t a hinv ⟨hin, hb⟩ hm hstep hd ha
  have hturn : decTurn s = .next t := (step_of_no_input hin).symm.trans hstep
  have hout : OutputBelowOp p t := (hinv.outputBelowOp hb hm).decTurn hturn
  rw [decTurn_outLen_of_done hb hturn hd] at ha
  exact hout.readOutWindow_eq ha

end Sys2Proof.Proofs
end

section
/-! SUPPORT. The decoder by cases (spec/30_encoding.md R61 to R67): for each part of it, which bytes it reads as which
instruction, and that any bytes can be continued until it reads one. -/

namespace Sys2Proof

/-! ### The fields of a tag as numbers (R61) -/

theorem tagLen_toNat (t : Byte) : (tagLen t).toNat = t.toNat / 32 := by
  simp only [tagLen, BitVec.extractLsb'_toNat, Nat.shiftRight_eq_div_pow]; omega

theorem tagLow_toNat (t : Byte) : (tagLow t).toNat = t.toNat % 32 := by
  simp only [tagLow, BitVec.extractLsb'_toNat, Nat.shiftRight_zero]

theorem tagLen_eq_zero_iff (t : Byte) : tagLen t = 0 ↔ t.toNat < 0x20 := by
  rw [← BitVec.toNat_inj, tagLen_toNat, show (0 : BitVec 3).toNat = 0 from rfl]; omega

theorem tagLen_eq_one_iff (t : Byte) : tagLen t = 1 ↔ 0x20 ≤ t.toNat ∧ t.toNat < 0x40 := by
  rw [← BitVec.toNat_inj, tagLen_toNat, show (1 : BitVec 3).toNat = 1 from rfl]; omega

theorem tagLen_eq_seven_iff (t : Byte) : tagLen t = 7 ↔ 0xE0 ≤ t.toNat := by
  rw [← BitVec.toNat_inj, tagLen_toNat, show (7 : BitVec 3).toNat = 7 from rfl]; omega

theorem tagLow_eq_mark_iff (t : Byte) : tagLow t = 31 ↔ t.toNat % 32 = 31 := by
  rw [← BitVec.toNat_inj, tagLow_toNat]; rfl

/-- The tag whose literal count is `n` (R64). -/
theorem tagByte_of_count {t : Byte} {n : Nat} (h : n = (tagLow t).toNat + 1) :
    tagByte (tagLen t) (BitVec.ofNat 5 (n - 1)) = t := by
  rw [h, Nat.add_sub_cancel, BitVec.ofNat_toNat, BitVec.setWidth_eq, tagByte_of_fields]

theorem litsOk_of_count {t : Byte} {lits : List Byte} (h : lits.length = (tagLow t).toNat + 1) :
    litsOk lits = true :=
  (litsOk_iff lits).2 (by have := (tagLow t).isLt; omega)

/-! ### Well-formed operands of level 2 (R62) -/

theorem m2ns_wf_iff (l : BitVec 3) (hi : BitVec 5) (lo : Byte) :
    (Instr.m2ns l hi lo).wf = true ↔ (l ≠ 0 ∧ l ≠ 7) ∧ ¬ (hi = 31 ∧ lo = 255) := by
  rw [Instr.wf, Bool.and_eq_true, shortFieldOk_iff, notFarMark_iff]

theorem m2nl_wf_iff (hi : BitVec 5) (k : Nat) (c lo : Byte) :
    (Instr.m2nl hi k c lo).wf = true ↔ c ≠ 255 ∧ ¬ (hi = 31 ∧ lo = 255) := by
  rw [Instr.wf, Bool.and_eq_true, bne_iff_ne, notFarMark_iff]; rfl

theorem m2fl_wf_iff (k : Nat) (c exhi exlo : Byte) : (Instr.m2fl k c exhi exlo).wf = true ↔ c ≠ 255 := bne_iff_ne

/-! ### Runs of bytes -/

theorem takeBytes_append (xs rest : List Byte) : takeBytes xs.length (xs ++ rest) = some (xs, rest) := by
  induction xs with
  | nil => rfl
  | cons b xs ih => simp [takeBytes, ih]

theorem takeBytes_eq_some_iff {n : Nat} {bs xs rest : List Byte} :
    takeBytes n bs = some (xs, rest) ↔ xs.length = n ∧ bs = xs ++ rest := by
  refine ⟨fun h => ?_, fun ⟨hn, hbs⟩ => hn ▸ hbs ▸ takeBytes_append xs rest⟩
  induction n generalizing bs xs with
  | zero => cases h; exact ⟨rfl, rfl⟩
  | succ n ih =>
    cases bs with
    | nil => cases h
    | cons b bs =>
      simp only [takeBytes] at h
      split at h
      next hn =>
        cases h
        obtain ⟨rfl, rfl⟩ := ih hn
        exact ⟨rfl, rfl⟩
      next => cases h

theorem lengthRun_last {b : Byte} (hb : b ≠ 255) (bs : List Byte) : lengthRun (b :: bs) = some (0, b, bs) :=
  if_neg hb

theorem lengthRun_cont {bs rest : List Byte} {k : Nat} {c : Byte} (h : lengthRun bs = some (k, c, rest)) :
    lengthRun (255 :: bs) = some (k + 1, c, rest) := by
  rw [lengthRun, h]; rfl

theorem lengthRun_cont_none {bs : List Byte} (h : lengthRun bs = none) : lengthRun (255 :: bs) = none := by
  rw [lengthRun, h]; rfl

theorem lengthRun_replicate (k : Nat) {c : Byte} (hc : c ≠ 255) (rest : List Byte) :
    lengthRun (List.replicate k 255 ++ c :: rest) = some (k, c, rest) := by
  induction k with
  | zero => exact lengthRun_last hc rest
  | succ k ih => exact lengthRun_cont ih

/-- The length bytes are `k` bytes of 255 and the first byte that is not 255 (R152). -/
theorem lengthRun_eq_some_iff {bs rest : List Byte} {k : Nat} {c : Byte} :
    lengthRun bs = some (k, c, rest) ↔ c ≠ 255 ∧ bs = List.replicate k 255 ++ c :: rest := by
  refine ⟨fun h => ?_, fun ⟨hc, hbs⟩ => hbs ▸ lengthRun_replicate k hc rest⟩
  induction bs generalizing k with
  | nil => cases h
  | cons b bs ih =>
    by_cases hb : b = 255
    · subst hb
      cases hr : lengthRun bs with
      | none => cases (lengthRun_cont_none hr).symm.trans h
      | some p =>
        cases (lengthRun_cont hr).symm.trans h
        obtain ⟨hc, rfl⟩ := ih hr
        exact ⟨hc, rfl⟩
    · cases (lengthRun_last hb bs).symm.trans h
      exact ⟨hb, rfl⟩

/-! ### Literal runs -/

theorem decodeFirst_eq_instr_iff {t : Byte} {bs rest : List Byte} {i : Instr} :
    decodeFirst t bs = .instr i rest ↔
      (tagLen t).toNat < 2 ∧ ∃ lits : List Byte, lits.length = (tagLow t).toNat + 1 ∧ bs = lits ++ rest ∧
        i = .hdr (tagLen t) lits := by
  constructor
  · intro h
    unfold decodeFirst at h
    split at h
    next => cases h
    next hm =>
      split at h
      next hl =>
        cases h
        obtain ⟨hlen, hbs⟩ := takeBytes_eq_some_iff.1 hl
        exact ⟨by omega, _, hlen, hbs, rfl⟩
      next => cases h
  · rintro ⟨hm, lits, hlen, hbs, rfl⟩
    rw [decodeFirst, if_neg (by omega), takeBytes_eq_some_iff.2 ⟨hlen, hbs⟩]

theorem decodeLit_eq_instr_iff {t : Byte} {bs rest : List Byte} {i : Instr} :
    decodeLit t bs = .instr i rest ↔
      ∃ lits : List Byte, lits.length = (tagLow t).toNat + 1 ∧ bs = lits ++ rest ∧ i = .lit lits := by
  constructor
  · intro h
    unfold decodeLit at h
    split at h
    next hl =>
      cases h
      obtain ⟨hlen, hbs⟩ := takeBytes_eq_some_iff.1 hl
      exact ⟨_, hlen, hbs, rfl⟩
    next => cases h
  · rintro ⟨lits, hlen, hbs, rfl⟩
    rw [decodeLit, takeBytes_eq_some_iff.2 ⟨hlen, hbs⟩]

/-! ### Level-1 matches -/

theorem decodeMatch1_long_iff {t : Byte} (ht : tagLen t = 7) {bs rest : List Byte} {i : Instr} :
    decodeMatch1 t bs = .instr i rest ↔ ∃ ext lo, bs = ext :: lo :: rest ∧ i = .m1l (tagLow t) ext lo := by
  unfold decodeMatch1
  rw [if_pos ht]
  constructor
  · intro h
    split at h
    next => cases h; exact ⟨_, _, rfl, rfl⟩
    next => cases h
  · rintro ⟨ext, lo, rfl, rfl⟩; rfl

theorem decodeMatch1_short_iff {t : Byte} (ht : tagLen t ≠ 7) {bs rest : List Byte} {i : Instr} :
    decodeMatch1 t bs = .instr i rest ↔ ∃ lo, bs = lo :: rest ∧ i = .m1s (tagLen t) (tagLow t) lo := by
  unfold decodeMatch1
  rw [if_neg ht]
  constructor
  · intro h
    split at h
    next => cases h; exact ⟨_, rfl, rfl⟩
    next => cases h
  · rintro ⟨lo, rfl, rfl⟩; rfl

/-! ### Level-2 matches -/

/-- What both kinds of level-2 match do after their length (R153, R154): `lo`, and behind the far marker pair the two
bytes of the far distance. -/
def decodeNearFar (x : BitVec 5) (near : Byte → Instr) (far : Byte → Byte → Instr) : List Byte → Decoded
  | [] => .reject (.truncated none)
  | lo :: rest =>
    if notFarMark x lo then .instr (near lo) rest
    else
      match rest with
      | exhi :: exlo :: rest' => .instr (far exhi exlo) rest'
      | _ => .reject (.truncated none)

theorem decodeNearFar_eq_instr_iff {x : BitVec 5} {near : Byte → Instr} {far : Byte → Byte → Instr}
    {bs rest : List Byte} {i : Instr} :
    decodeNearFar x near far bs = .instr i rest ↔
      (∃ lo, ¬ (x = 31 ∧ lo = 255) ∧ bs = lo :: rest ∧ i = near lo) ∨
      (∃ exhi exlo, x = 31 ∧ bs = 255 :: exhi :: exlo :: rest ∧ i = far exhi exlo) := by
  constructor
  · intro h
    cases bs with
    | nil => cases h
    | cons lo bs =>
      simp only [decodeNearFar, notFarMark_iff] at h
      split at h
      next hmark => cases h; exact .inl ⟨lo, hmark, rfl, rfl⟩
      next hmark =>
        obtain ⟨rfl, rfl⟩ := not_not.1 hmark
        split at h
        next => cases h; exact .inr ⟨_, _, rfl, rfl, rfl⟩
        next => cases h
  · rintro (⟨lo, hmark, rfl, rfl⟩ | ⟨exhi, exlo, rfl, rfl, rfl⟩)
    · exact if_pos ((notFarMark_iff x lo).2 hmark)
    · rfl

theorem decodeMatch2_short {t : Byte} (ht : tagLen t ≠ 7) (bs : List Byte) :
    decodeMatch2 t bs = decodeNearFar (tagLow t) (.m2ns (tagLen t) (tagLow t)) (.m2fs (tagLen t)) bs := by
  unfold decodeMatch2
  rw [if_neg ht]; rfl

theorem decodeMatch2_long {t : Byte} (ht : tagLen t = 7) {bs after : List Byte} {k : Nat} {c : Byte}
    (hl : lengthRun bs = some (k, c, after)) :
    decodeMatch2 t bs = decodeNearFar (tagLow t) (.m2nl (tagLow t) k c) (.m2fl k c) after := by
  unfold decodeMatch2
  rw [if_pos ht, hl]; rfl

theorem decodeMatch2_cut {t : Byte} (ht : tagLen t = 7) {bs : List Byte} (hl : lengthRun bs = none) :
    decodeMatch2 t bs = .reject (.truncated none) := by
  unfold decodeMatch2
  rw [if_pos ht, hl]

theorem decodeMatch2_long_iff {t : Byte} (ht : tagLen t = 7) {bs rest : List Byte} {i : Instr} :
    decodeMatch2 t bs = .instr i rest ↔
      ∃ k c after, c ≠ 255 ∧ bs = List.replicate k 255 ++ c :: after ∧
        decodeNearFar (tagLow t) (.m2nl (tagLow t) k c) (.m2fl k c) after = .instr i rest := by
  constructor
  · intro h
    cases hl : lengthRun bs with
    | none => cases (decodeMatch2_cut ht hl).symm.trans h
    | some p =>
      obtain ⟨k, c, after⟩ := p
      obtain ⟨hc, hbs⟩ := lengthRun_eq_some_iff.1 hl
      exact ⟨k, c, after, hc, hbs, (decodeMatch2_long ht hl).symm.trans h⟩
  · rintro ⟨k, c, after, hc, hbs, h⟩
    exact (decodeMatch2_long ht (lengthRun_eq_some_iff.2 ⟨hc, hbs⟩)).trans h

/-! ### The opcode map: the tag chooses literal or match (R65) -/

theorem decode_eq_decodeLit {d : Dialect} (hd : d ≠ .first) {t : Byte} (ht : tagLen t = 0) (bs : List Byte) :
    decode d (t :: bs) = decodeLit t bs := by
  cases d with
  | first => exact absurd rfl hd
  | level1 => exact if_pos ht
  | level2 => exact if_pos ht

theorem decode_level1_match {t : Byte} (ht : tagLen t ≠ 0) (bs : List Byte) :
    decode .level1 (t :: bs) = decodeMatch1 t bs := if_neg ht

theorem decode_level2_match {t : Byte} (ht : tagLen t ≠ 0) (bs : List Byte) :
    decode .level2 (t :: bs) = decodeMatch2 t bs := if_neg ht

/-! ### Decoding against encoding (R62, R66) -/

theorem encode_m2nl_append (hi : BitVec 5) (k : Nat) (c lo : Byte) (rest : List Byte) :
    encode (.m2nl hi k c lo) ++ rest = tagByte 7 hi :: (List.replicate k 255 ++ c :: lo :: rest) :=
  congrArg (tagByte 7 hi :: ·) (List.append_assoc _ [c, lo] rest)

theorem encode_m2fl_append (k : Nat) (c exhi exlo : Byte) (rest : List Byte) :
    encode (.m2fl k c exhi exlo) ++ rest =
      tagByte 7 31 :: (List.replicate k 255 ++ c :: 255 :: exhi :: exlo :: rest) :=
  congrArg (tagByte 7 31 :: ·) (List.append_assoc _ [c, 255, exhi, exlo] rest)

/-- `bs` is a spelling of `i`, an opcode of the dialect, and then `rest`. -/
def Spells (d : Dialect) (i : Instr) (rest bs : List Byte) : Prop :=
  i.wf = true ∧ i.fits d = true ∧ encode i ++ rest = bs

theorem spells_of_decodeFirst {t : Byte} {bs rest : List Byte} {i : Instr} (h : decodeFirst t bs = .instr i rest) :
    Spells .first i rest (t :: bs) := by
  obtain ⟨hm, lits, hlen, rfl, rfl⟩ := decodeFirst_eq_instr_iff.1 h
  exact ⟨by simp [Instr.wf, hm, litsOk_of_count hlen], rfl, by rw [encode, tagByte_of_count hlen]; rfl⟩

theorem spells_of_decodeLit {t : Byte} (ht : tagLen t = 0) {d : Dialect} (hd : d ≠ .first) {bs rest : List Byte}
    {i : Instr} (h : decodeLit t bs = .instr i rest) : Spells d i rest (t :: bs) := by
  obtain ⟨lits, hlen, rfl, rfl⟩ := decodeLit_eq_instr_iff.1 h
  exact ⟨litsOk_of_count hlen, by simp [Instr.fits, hd], by rw [encode, ← ht, tagByte_of_count hlen]; rfl⟩

theorem spells_of_decodeMatch1 {t : Byte} (ht : tagLen t ≠ 0) {bs rest : List Byte} {i : Instr}
    (h : decodeMatch1 t bs = .instr i rest) : Spells .level1 i rest (t :: bs) := by
  by_cases h7 : tagLen t = 7
  · obtain ⟨ext, lo, rfl, rfl⟩ := (decodeMatch1_long_iff h7).1 h
    exact ⟨rfl, rfl, by rw [encode, ← h7, tagByte_of_fields]; rfl⟩
  · obtain ⟨lo, rfl, rfl⟩ := (decodeMatch1_short_iff h7).1 h
    exact ⟨(shortFieldOk_iff _).2 ⟨ht, h7⟩, rfl, by rw [encode, tagByte_of_fields]; rfl⟩

theorem spells_of_decodeMatch2 {t : Byte} (ht : tagLen t ≠ 0) {bs rest : List Byte} {i : Instr}
    (h : decodeMatch2 t bs = .instr i rest) : Spells .level2 i rest (t :: bs) := by
  have htag := tagByte_of_fields t
  by_cases h7 : tagLen t = 7
  · obtain ⟨k, c, after, hc, rfl, hn⟩ := (decodeMatch2_long_iff h7).1 h
    rcases decodeNearFar_eq_instr_iff.1 hn with ⟨lo, hmark, rfl, rfl⟩ | ⟨exhi, exlo, hx, rfl, rfl⟩
    · exact ⟨(m2nl_wf_iff ..).2 ⟨hc, hmark⟩, rfl, by rw [encode_m2nl_append, ← h7, htag]⟩
    · exact ⟨(m2fl_wf_iff ..).2 hc, rfl, by rw [encode_m2fl_append, ← h7, ← hx, htag]⟩
  · rcases decodeNearFar_eq_instr_iff.1 ((decodeMatch2_short h7 bs).symm.trans h) with
      ⟨lo, hmark, rfl, rfl⟩ | ⟨exhi, exlo, hx, rfl, rfl⟩
    · exact ⟨(m2ns_wf_iff ..).2 ⟨⟨ht, h7⟩, hmark⟩, rfl, by rw [encode, htag]; rfl⟩
    · exact ⟨(shortFieldOk_iff _).2 ⟨ht, h7⟩, rfl, by rw [encode, Config.farMarkHi, ← hx, htag]; rfl⟩

theorem spells_of_decode {d : Dialect} {bs rest : List Byte} {i : Instr} (h : decode d bs = .instr i rest) :
    Spells d i rest bs := by
  cases bs with
  | nil => cases h
  | cons t bs =>
    cases d with
    | first => exact spells_of_decodeFirst h
    | level1 =>
      by_cases ht : tagLen t = 0
      · exact spells_of_decodeLit ht (by decide) ((decode_eq_decodeLit (by decide) ht bs).symm.trans h)
      · exact spells_of_decodeMatch1 ht ((decode_level1_match ht bs).symm.trans h)
    | level2 =>
      by_cases ht : tagLen t = 0
      · exact spells_of_decodeLit ht (by decide) ((decode_eq_decodeLit (by decide) ht bs).symm.trans h)
      · exact spells_of_decodeMatch2 ht ((decode_level2_match ht bs).symm.trans h)

/-! ### A tag built from its fields, by dialect (R61, R65) -/

theorem decode_hdr {m : BitVec 3} (hm : m.toNat < 2) {lits : List Byte} (hl : litsOk lits = true)
    (rest : List Byte) : decode .first (encode (.hdr m lits) ++ rest) = .instr (.hdr m lits) rest :=
  decodeFirst_eq_instr_iff.2 ⟨by rwa [tagLen_tagByte], lits, by rw [tagLow_tagByte, litCount_of_ok hl], rfl,
    by rw [tagLen_tagByte]⟩

theorem decode_lit {d : Dialect} (hd : d ≠ .first) {lits : List Byte} (hl : litsOk lits = true) (rest : List Byte) :
    decode d (encode (.lit lits) ++ rest) = .instr (.lit lits) rest := by
  refine (decode_eq_decodeLit hd (tagLen_tagByte 0 _) _).trans ?_
  exact decodeLit_eq_instr_iff.2 ⟨lits, by rw [tagLow_tagByte, litCount_of_ok hl], rfl, rfl⟩

theorem decode_m1s {l : BitVec 3} (h0 : l ≠ 0) (h7 : l ≠ 7) (hi : BitVec 5) (lo : Byte) (rest : List Byte) :
    decode .level1 (encode (.m1s l hi lo) ++ rest) = .instr (.m1s l hi lo) rest := by
  refine (decode_level1_match (by rwa [tagLen_tagByte]) _).trans ?_
  exact (decodeMatch1_short_iff (by rwa [tagLen_tagByte])).2 ⟨lo, rfl, by rw [tagLen_tagByte, tagLow_tagByte]⟩

theorem decode_m1l (hi : BitVec 5) (ext lo : Byte) (rest : List Byte) :
    decode .level1 (encode (.m1l hi ext lo) ++ rest) = .instr (.m1l hi ext lo) rest := by
  refine (decode_level1_match (by rw [tagLen_tagByte]; decide) _).trans ?_
  exact (decodeMatch1_long_iff (tagLen_tagByte 7 hi)).2 ⟨ext, lo, rfl, by rw [tagLow_tagByte]⟩

theorem decode_level2_short {l : BitVec 3} (h0 : l ≠ 0) (h7 : l ≠ 7) (x : BitVec 5) (bs : List Byte) :
    decode .level2 (tagByte l x :: bs) = decodeNearFar x (.m2ns l x) (.m2fs l) bs := by
  rw [decode_level2_match (by rwa [tagLen_tagByte]), decodeMatch2_short (by rwa [tagLen_tagByte]), tagLen_tagByte,
    tagLow_tagByte]

theorem decode_level2_long (x : BitVec 5) (k : Nat) {c : Byte} (hc : c ≠ 255) (after : List Byte) :
    decode .level2 (tagByte 7 x :: (List.replicate k 255 ++ c :: after)) =
      decodeNearFar x (.m2nl x k c) (.m2fl k c) after := by
  rw [decode_level2_match (by rw [tagLen_tagByte]; decide),
    decodeMatch2_long (tagLen_tagByte 7 x) (lengthRun_replicate k hc after), tagLow_tagByte]

/-! ### Any bytes can be continued to an opcode (R67) -/

theorem exists_takeBytes_append (n : Nat) (bs : List Byte) :
    ∃ more xs rest, takeBytes n (bs ++ more) = some (xs, rest) :=
  ⟨List.replicate n 0, _, _, takeBytes_eq_some_iff.2 ⟨by simp, (List.take_append_drop n _).symm⟩⟩

/-- A byte of 0 ends the length bytes, if nothing before it has. -/
theorem exists_lengthRun_append (bs more : List Byte) :
    ∃ k c after, lengthRun (bs ++ 0 :: more) = some (k, c, after ++ more) := by
  induction bs with
  | nil => exact ⟨0, 0, [], rfl⟩
  | cons b bs ih =>
    obtain ⟨k, c, after, h⟩ := ih
    by_cases hb : b = 255
    · exact ⟨k + 1, c, after, hb ▸ lengthRun_cont h⟩
    · exact ⟨0, b, bs ++ [0], by rw [List.append_assoc]; exact lengthRun_last hb _⟩

/-- Three more bytes are enough for any operands after the length. -/
theorem exists_append_three (bs : List Byte) : ∃ a b c rest, bs ++ [0, 0, 0] = a :: b :: c :: rest :=
  match bs with
  | [] => ⟨_, _, _, _, rfl⟩
  | [_] => ⟨_, _, _, _, rfl⟩
  | [_, _] => ⟨_, _, _, _, rfl⟩
  | _ :: _ :: _ :: _ => ⟨_, _, _, _, rfl⟩

theorem exists_decodeNearFar (x : BitVec 5) (near : Byte → Instr) (far : Byte → Byte → Instr) (bs : List Byte) :
    ∃ i rest, decodeNearFar x near far (bs ++ [0, 0, 0]) = .instr i rest := by
  obtain ⟨lo, exhi, exlo, rest, hbs⟩ := exists_append_three bs
  rw [hbs]
  by_cases hmark : x = 31 ∧ lo = 255
  · exact ⟨_, _, decodeNearFar_eq_instr_iff.2 (.inr ⟨exhi, exlo, hmark.1, by rw [hmark.2], rfl⟩)⟩
  · exact ⟨_, _, decodeNearFar_eq_instr_iff.2 (.inl ⟨lo, hmark, rfl, rfl⟩)⟩

theorem exists_decodeFirst {t : Byte} (ht : t.toNat < 64) (bs : List Byte) :
    ∃ more i rest, decodeFirst t (bs ++ more) = .instr i rest := by
  obtain ⟨more, lits, rest, h⟩ := exists_takeBytes_append ((tagLow t).toNat + 1) bs
  obtain ⟨hlen, hbs⟩ := takeBytes_eq_some_iff.1 h
  exact ⟨more, _, rest, decodeFirst_eq_instr_iff.2 ⟨by rw [tagLen_toNat]; omega, lits, hlen, hbs, rfl⟩⟩

theorem exists_decodeLit (t : Byte) (bs : List Byte) : ∃ more i rest, decodeLit t (bs ++ more) = .instr i rest := by
  obtain ⟨more, lits, rest, h⟩ := exists_takeBytes_append ((tagLow t).toNat + 1) bs
  obtain ⟨hlen, hbs⟩ := takeBytes_eq_some_iff.1 h
  exact ⟨more, _, rest, decodeLit_eq_instr_iff.2 ⟨lits, hlen, hbs, rfl⟩⟩

theorem exists_decodeMatch1 (t : Byte) (bs : List Byte) :
    ∃ more i rest, decodeMatch1 t (bs ++ more) = .instr i rest := by
  obtain ⟨a, b, c, rest, hbs⟩ := exists_append_three bs
  refine ⟨[0, 0, 0], ?_⟩
  rw [hbs]
  by_cases ht : tagLen t = 7
  · exact ⟨_, _, (decodeMatch1_long_iff ht).2 ⟨a, b, rfl, rfl⟩⟩
  · exact ⟨_, _, (decodeMatch1_short_iff ht).2 ⟨a, rfl, rfl⟩⟩

theorem exists_decodeMatch2 (t : Byte) (bs : List Byte) :
    ∃ more i rest, decodeMatch2 t (bs ++ more) = .instr i rest := by
  by_cases ht : tagLen t = 7
  · obtain ⟨k, c, after, hl⟩ := exists_lengthRun_append bs [0, 0, 0]
    exact ⟨_, decodeMatch2_long ht hl ▸ exists_decodeNearFar _ _ _ after⟩
  · exact ⟨_, decodeMatch2_short ht _ ▸ exists_decodeNearFar _ _ _ bs⟩

theorem exists_decode (d : Dialect) (t : Byte) (bs : List Byte) (ht : d = .first → t.toNat < 64) :
    ∃ more i rest, decode d (t :: bs ++ more) = .instr i rest := by
  cases d with
  | first => exact exists_decodeFirst (ht rfl) bs
  | level1 =>
    by_cases h0 : tagLen t = 0
    · obtain ⟨more, i, rest, h⟩ := exists_decodeLit t bs
      exact ⟨more, i, rest, (decode_eq_decodeLit (by decide) h0 _).trans h⟩
    · obtain ⟨more, i, rest, h⟩ := exists_decodeMatch1 t bs
      exact ⟨more, i, rest, (decode_level1_match h0 _).trans h⟩
  | level2 =>
    by_cases h0 : tagLen t = 0
    · obtain ⟨more, i, rest, h⟩ := exists_decodeLit t bs
      exact ⟨more, i, rest, (decode_eq_decodeLit (by decide) h0 _).trans h⟩
    · obtain ⟨more, i, rest, h⟩ := exists_decodeMatch2 t bs
      exact ⟨more, i, rest, (decode_level2_match h0 _).trans h⟩

/-! ### Host commands (R69) -/

/-- The instructions without a host operation are the opcodes, each of which some dialect has. -/
theorem encodeHost_eq_none_iff (i : Instr) : encodeHost i = none ↔ ∃ d, i.fits d = true := by
  cases i with
  | hdr => exact iff_of_true rfl ⟨.first, rfl⟩
  | lit | m1s | m1l => exact iff_of_true rfl ⟨.level1, rfl⟩
  | m2ns | m2nl | m2fs | m2fl => exact iff_of_true rfl ⟨.level2, rfl⟩
  | adlLoad | adlPush | adlRead | decStart => exact iff_of_false nofun nofun

/-- A command is read back from its host operation: the register's own bits are the whole operand. -/
theorem decodeHost_of_encodeHost {i : Instr} {h : HostOp} (he : encodeHost i = some h) : decodeHost h = some i := by
  cases i with
  | adlLoad v => cases he; simp [decodeHost]
  | adlPush b => cases he; simp [decodeHost]
  | adlRead => cases he; rfl
  | decStart => cases he; rfl
  | _ => cases he

end Sys2Proof

namespace Sys2Proof.Machine

/-- The byte at `IP` is the first DEC reads (R112). -/
theorem streamTail_eq_cons {s : State} (h : s.ip.toNat < s.inLen.toNat) :
    ∃ bs, streamTail s = inByte s s.ip.toNat :: bs := by
  obtain ⟨n, hn⟩ := Nat.exists_eq_add_of_lt h
  rw [streamTail, show s.inLen.toNat - s.ip.toNat = n + 1 by omega, List.range_succ_eq_map]
  exact ⟨_, rfl⟩

end Sys2Proof.Machine
end

section
/-! SUPPORT. The opcode map (spec/30_encoding.md R65): for each dialect, which instruction a range of tag values
gives. -/

namespace Sys2Proof.Claim

variable {t : Byte} {bs rest : List Byte} {i : Instr}

theorem lit_of_low_tag {d : Dialect} (hd : d ≠ .first) (ht : t.toNat < 0x20)
    (h : decode d (t :: bs) = .instr i rest) : ∃ lits, i = .lit lits := by
  rw [decode_eq_decodeLit hd ((tagLen_eq_zero_iff t).2 ht)] at h
  obtain ⟨lits, -, -, hi⟩ := decodeLit_eq_instr_iff.1 h
  exact ⟨lits, hi⟩

theorem opcode_of_level1_tag (h : decode .level1 (t :: bs) = .instr i rest) :
    (t.toNat < 0x20 → ∃ lits, i = .lit lits) ∧
    (0x20 ≤ t.toNat → t.toNat < 0xE0 → ∃ l hi lo, i = .m1s l hi lo ∧
      (t.toNat % 32 = 31 → bs.head? = some 255 → lengthAndDistance i = some (l.toNat + 2, 8192))) ∧
    (0xE0 ≤ t.toNat → ∃ hi ext lo, i = .m1l hi ext lo) := by
  refine ⟨fun ht => lit_of_low_tag (by decide) ht h, fun h20 hE0 => ?short, fun hE0 => ?long⟩
  all_goals rw [decode_level1_match (by rw [Ne, tagLen_eq_zero_iff]; omega)] at h
  case short =>
    obtain ⟨lo, rfl, rfl⟩ := (decodeMatch1_short_iff (by rw [Ne, tagLen_eq_seven_iff]; omega)).1 h
    refine ⟨_, _, lo, rfl, fun h31 hlo => ?_⟩
    cases hlo
    rw [lengthAndDistance, tagLow_toNat, h31]; rfl
  case long =>
    obtain ⟨ext, lo, -, hi⟩ := (decodeMatch1_long_iff ((tagLen_eq_seven_iff t).2 hE0)).1 h
    exact ⟨_, ext, lo, hi⟩

theorem opcode_of_level2_tag (h : decode .level2 (t :: bs) = .instr i rest) :
    (t.toNat < 0x20 → ∃ lits, i = .lit lits) ∧
    (0x20 ≤ t.toNat → t.toNat < 0xE0 →
      (t.toNat % 32 = 31 ∧ bs.head? = some 255 → ∃ l exhi exlo, i = .m2fs l exhi exlo) ∧
      (¬ (t.toNat % 32 = 31 ∧ bs.head? = some 255) → ∃ l hi lo, i = .m2ns l hi lo)) ∧
    (0xE0 ≤ t.toNat → ∃ k c lo after, c ≠ 255 ∧ bs = List.replicate k 255 ++ c :: lo :: after ∧
      (t.toNat = 255 ∧ lo = 255 → ∃ exhi exlo, i = .m2fl k c exhi exlo) ∧
      (¬ (t.toNat = 255 ∧ lo = 255) → ∃ hi, i = .m2nl hi k c lo)) := by
  have hlow := tagLow_eq_mark_iff t
  refine ⟨fun ht => lit_of_low_tag (by decide) ht h, fun h20 hE0 => ?short, fun hE0 => ?long⟩
  all_goals rw [decode_level2_match (by rw [Ne, tagLen_eq_zero_iff]; omega)] at h
  case short =>
    rw [decodeMatch2_short (by rw [Ne, tagLen_eq_seven_iff]; omega)] at h
    rcases decodeNearFar_eq_instr_iff.1 h with ⟨lo, hmark, rfl, rfl⟩ | ⟨exhi, exlo, hx, rfl, rfl⟩
    · exact ⟨fun ⟨h31, hlo⟩ => absurd ⟨hlow.2 h31, Option.some.inj hlo⟩ hmark, fun _ => ⟨_, _, lo, rfl⟩⟩
    · exact ⟨fun _ => ⟨_, exhi, exlo, rfl⟩, fun hnear => absurd ⟨hlow.1 hx, rfl⟩ hnear⟩
  case long =>
    obtain ⟨k, c, after, hc, rfl, hn⟩ := (decodeMatch2_long_iff ((tagLen_eq_seven_iff t).2 hE0)).1 h
    have htop : t.toNat = 255 ↔ tagLow t = 31 := by rw [hlow]; have := t.isLt; omega
    rcases decodeNearFar_eq_instr_iff.1 hn with ⟨lo, hmark, rfl, rfl⟩ | ⟨exhi, exlo, hx, rfl, rfl⟩
    · exact ⟨k, c, lo, _, hc, rfl, fun ⟨ht, hlo⟩ => absurd ⟨htop.1 ht, hlo⟩ hmark, fun _ => ⟨_, rfl⟩⟩
    · exact ⟨k, c, 255, _, hc, rfl, fun _ => ⟨exhi, exlo, rfl⟩, fun hnear => absurd ⟨htop.2 hx, rfl⟩ hnear⟩

theorem opcode_of_first_tag (h : decode .first (t :: bs) = .instr i rest) :
    (t.toNat < 0x20 → ∃ lits, i = .hdr 0 lits ∧ lits.length = t.toNat % 32 + 1) ∧
    (0x20 ≤ t.toNat → t.toNat < 0x40 ∧ ∃ lits, i = .hdr 1 lits ∧ lits.length = t.toNat % 32 + 1) := by
  obtain ⟨hm, lits, hlen, -, rfl⟩ := decodeFirst_eq_instr_iff.1 h
  rw [tagLen_toNat] at hm
  rw [tagLow_toNat] at hlen
  refine ⟨fun ht => ⟨lits, by rw [(tagLen_eq_zero_iff t).2 ht], hlen⟩, fun ht => ⟨by omega, lits, ?_, hlen⟩⟩
  rw [(tagLen_eq_one_iff t).2 (by omega)]

end Sys2Proof.Claim
end

section
/-! PROOFS. The statements of spec/30_encoding.md about the decoder and the encoder. -/

namespace Sys2Proof.Proofs

open Sys2Proof.Machine Sys2Proof.Claim

/-- Settles O40: by format. The tag gives back its fields, and these choose the part of the decoder that reads the
operand bytes of just this format. -/
theorem decodeOfEncodeIsTheInstruction : Obligations.DecodeOfEncodeIsTheInstruction := by
  intro d i rest hw hf
  cases i with
  | hdr m lits =>
    cases beq_iff_eq.1 hf
    rw [Instr.wf, Bool.and_eq_true, decide_eq_true_iff] at hw
    exact decode_hdr hw.1 hw.2 rest
  | lit lits => exact decode_lit (bne_iff_ne.1 hf) hw rest
  | m1s l hi lo =>
    cases beq_iff_eq.1 hf
    obtain ⟨h0, h7⟩ := (shortFieldOk_iff l).1 hw
    exact decode_m1s h0 h7 hi lo rest
  | m1l hi ext lo =>
    cases beq_iff_eq.1 hf
    exact decode_m1l hi ext lo rest
  | m2ns l hi lo =>
    cases beq_iff_eq.1 hf
    obtain ⟨⟨h0, h7⟩, hmark⟩ := (m2ns_wf_iff l hi lo).1 hw
    exact (decode_level2_short h0 h7 hi _).trans (decodeNearFar_eq_instr_iff.2 (.inl ⟨lo, hmark, rfl, rfl⟩))
  | m2nl hi k c lo =>
    cases beq_iff_eq.1 hf
    obtain ⟨hc, hmark⟩ := (m2nl_wf_iff hi k c lo).1 hw
    rw [encode_m2nl_append, decode_level2_long hi k hc]
    exact decodeNearFar_eq_instr_iff.2 (.inl ⟨lo, hmark, rfl, rfl⟩)
  | m2fs l exhi exlo =>
    cases beq_iff_eq.1 hf
    obtain ⟨h0, h7⟩ := (shortFieldOk_iff l).1 hw
    exact (decode_level2_short h0 h7 31 _).trans (decodeNearFar_eq_instr_iff.2 (.inr ⟨exhi, exlo, rfl, rfl, rfl⟩))
  | m2fl k c exhi exlo =>
    cases beq_iff_eq.1 hf
    rw [encode_m2fl_append, decode_level2_long 31 k ((m2fl_wf_iff k c exhi exlo).1 hw)]
    exact decodeNearFar_eq_instr_iff.2 (.inr ⟨exhi, exlo, rfl, rfl, rfl⟩)
  | adlLoad v => cases hf
  | adlPush b => cases hf
  | adlRead => cases hf
  | decStart => cases hf

/-- Settles O41: by the part of the decoder that read the bytes. -/
theorem encodeOfDecodeIsTheBytes : Obligations.EncodeOfDecodeIsTheBytes :=
  fun _ _ _ _ => spells_of_decode

/-- Settles O22: the marker of a byte of 64 or more is 2 or more, which the decoder rejects before it looks at any
other byte; every other part of the decoder reads an opcode once enough bytes are there. -/
theorem onlyTheLevelMarkerIsIllegal : Obligations.OnlyTheLevelMarkerIsIllegal := by
  refine ⟨fun s ⟨hin, hb⟩ hfirst hip hmark => ?_, exists_decode⟩
  obtain ⟨bs, htail⟩ := streamTail_eq_cons hip
  have hm : 2 ≤ (tagLen (inByte s s.ip.toNat)).toNat := by rw [tagLen_toNat]; omega
  have hreject : decode (dialectOf s) (streamTail s) = .reject (.illegalLevel (tagLen (inByte s s.ip.toNat))) := by
    rw [htail, dialectOf, if_pos hfirst]; exact if_pos hm
  rw [step_of_no_input hin, decTurn_of_reject hb hreject]
  rfl

/-- Settles O44: each range of tags is one part of the decoder, and the part says which instructions it reads. -/
theorem opcodeMapByTag : Obligations.OpcodeMapByTag :=
  fun _ _ _ _ => ⟨opcode_of_level1_tag, opcode_of_level2_tag, opcode_of_first_tag⟩

/-- Settles O42: by instruction, the opcodes against the four commands. -/
theorem hostCommandsDecode : Obligations.HostCommandsDecode :=
  fun i => ⟨encodeHost_eq_none_iff i, fun _ => decodeHost_of_encodeHost⟩

/-- Settles O43: each word is the encoding of its instruction, so O40 gives what it decodes to. -/
theorem formatTableWordsDecode : Obligations.FormatTableWordsDecode :=
  have decode_encode := decodeOfEncodeIsTheInstruction
  ⟨decode_encode .first (.hdr 1 [0x61, 0x62, 0x63]) [] rfl rfl,
    decode_encode .level1 (.lit [0xFF, 0x20]) [7] rfl rfl,
    decode_encode .level1 (.m1s 4 0 2) [] rfl rfl,
    decode_encode .level1 (.m1l 1 11 5) [] rfl rfl,
    decode_encode .level2 (.m2ns 1 31 254) [] rfl rfl,
    decode_encode .level2 (.m2nl 0 2 5 0) [] rfl rfl,
    decode_encode .level2 (.m2fs 6 1 2) [] rfl rfl,
    decode_encode .level2 (.m2fl 1 0 0 3) [] rfl rfl⟩

end Sys2Proof.Proofs
end

section
/-! SUPPORT. The checksum unit (spec/40_adler32.md): what its commands do to the pair of sums, the pair in a 32-bit
checksum, and the closed form of the sums after a byte sequence, with and without reduction. -/

namespace Sys2Proof.Machine

/-! ### The commands on the pair of sums -/

/-- The state with the given pair of sums in `S1` and `S2`. -/
def withSums (p : Half × Half) (s : State) : State := { s with s1 := p.1, s2 := p.2 }

theorem exec_adlLoad (c : BitVec 32) (s : State) : exec (.adlLoad c) s = .next (withSums (sumsOf c) s) := rfl

theorem exec_adlPush (b : Byte) (s : State) :
    exec (.adlPush b) s = .next (withSums (adlerStep b s.s1 s.s2) s) := rfl

theorem exec_adlRead (s : State) : exec .adlRead s = .next { s with hostRd := (checksum s).setWidth 64 } := rfl

theorem execAll_cons_of_next {i : Instr} {s t : State} (h : exec i s = .next t) (is : List Instr) :
    execAll (i :: is) s = execAll is t := by simp only [execAll, h]

/-- Pushing bytes folds them into the sums, whatever comes after (R93, R95). -/
theorem execAll_adlPush_append (data : List Byte) (is : List Instr) (p : Half × Half) (s : State) :
    execAll (data.map .adlPush ++ is) (withSums p s) = execAll is (withSums (adlerFold p data) s) := by
  induction data generalizing p with
  | nil => rfl
  | cons b bs ih => exact (execAll_cons_of_next (exec_adlPush b _) _).trans (ih (adlerStep b p.1 p.2))

/-- The command sequence of R95 leaves the sums of the fold, and their checksum in the host's hand. -/
theorem execAll_adlerCommands (c : BitVec 32) (data : List Byte) (s : State) :
    execAll (adlerCommands c data) s =
      .next { withSums (adlerFold (sumsOf c) data) s with hostRd := (adler32 c data).setWidth 64 } :=
  (execAll_cons_of_next (exec_adlLoad c s) _).trans (execAll_adlPush_append data [.adlRead] (sumsOf c) s)

/-! ### The pair of sums in a checksum (R11, R92) -/

theorem sumsOf_fst_toNat (c : BitVec 32) : (sumsOf c).1.toNat = c.toNat % 65536 := by
  simp [sumsOf]

theorem sumsOf_snd_toNat (c : BitVec 32) : (sumsOf c).2.toNat = c.toNat / 65536 := by
  simp only [sumsOf, BitVec.extractLsb'_toNat, Nat.shiftRight_eq_div_pow]; omega

theorem sums_ext {p q : Half × Half} (h1 : p.1.toNat = q.1.toNat) (h2 : p.2.toNat = q.2.toNat) : p = q :=
  Prod.ext (BitVec.eq_of_toNat_eq h1) (BitVec.eq_of_toNat_eq h2)

/-- Packing the halves and taking them apart again gives them back. -/
theorem sumsOf_append (p : Half × Half) : sumsOf (p.2 ++ p.1) = p := by
  have h := half_append_toNat p.2 p.1
  exact sums_ext (by rw [sumsOf_fst_toNat]; omega) (by rw [sumsOf_snd_toNat]; omega)

theorem append_sumsOf (c : BitVec 32) : (sumsOf c).2 ++ (sumsOf c).1 = c := by
  apply BitVec.eq_of_toNat_eq
  rw [half_append_toNat, sumsOf_fst_toNat, sumsOf_snd_toNat]; omega

theorem sumsOf_adler32 (c : BitVec 32) (data : List Byte) : sumsOf (adler32 c data) = adlerFold (sumsOf c) data :=
  sumsOf_append _

/-! ### The fold over a byte sequence -/

theorem adlerFold_append (p : Half × Half) (x y : List Byte) :
    adlerFold p (x ++ y) = adlerFold (adlerFold p x) y := List.foldl_append

/-- Both sums are below the modulus (R93). -/
def ReducedSums (p : Half × Half) : Prop := p.1.toNat < 65521 ∧ p.2.toNat < 65521

theorem adlerStep_reduced (b : Byte) (s1 s2 : Half) : ReducedSums (adlerStep b s1 s2) :=
  ⟨adlerStep_fst b s1 s2 ▸ Nat.mod_lt _ (by decide), adlerStep_snd b s1 s2 ▸ Nat.mod_lt _ (by decide)⟩

theorem ReducedSums.adlerFold {p : Half × Half} (hp : ReducedSums p) (data : List Byte) :
    ReducedSums (adlerFold p data) := by
  induction data generalizing p with
  | nil => exact hp
  | cons b bs ih => exact ih (adlerStep_reduced b p.1 p.2)

/-- A push sees its old sums modulo 65521 only. -/
theorem adlerStep_congr (b : Byte) {p q : Half × Half} (h1 : p.1.toNat ≡ q.1.toNat [MOD 65521])
    (h2 : p.2.toNat ≡ q.2.toNat [MOD 65521]) : adlerStep b p.1 p.2 = adlerStep b q.1 q.2 := by
  have hs1 : (p.1.toNat + b.toNat) % 65521 = (q.1.toNat + b.toNat) % 65521 := h1.add_right _
  refine sums_ext ?_ ?_
  · rw [adlerStep_fst, adlerStep_fst, hs1]
  · rw [adlerStep_snd, adlerStep_snd, hs1]; exact h2.add_right _

/-! ### The sums of a byte sequence as numbers (R91) -/

/-- What a byte sequence adds to `S1`. -/
def byteSum (data : List Byte) : Nat := (data.map BitVec.toNat).sum

/-- What a byte sequence adds to `S2` from `S1 = 0`: the `i`-th of `n` bytes is added `n - i` times. -/
def weightedSum (data : List Byte) : Nat :=
  ((List.range data.length).map fun i => (data.length - i) * (data.getD i 0).toNat).sum

theorem byteSum_cons (b : Byte) (bs : List Byte) : byteSum (b :: bs) = b.toNat + byteSum bs := List.sum_cons

theorem weightedSum_cons (b : Byte) (bs : List Byte) :
    weightedSum (b :: bs) = (bs.length + 1) * b.toNat + weightedSum bs := by
  simp [weightedSum, List.range_succ_eq_map, Function.comp_def]

theorem byteSum_le (data : List Byte) : byteSum data ≤ 255 * data.length := by
  induction data with
  | nil => exact Nat.le_refl 0
  | cons b bs ih => rw [byteSum_cons, List.length_cons]; omega

/-- At most `255 * (n + (n - 1) + ... + 1)`. -/
theorem two_mul_weightedSum_le (data : List Byte) :
    2 * weightedSum data ≤ 255 * (data.length * (data.length + 1)) := by
  induction data with
  | nil => exact Nat.le_refl 0
  | cons b bs ih =>
    have hb : (bs.length + 1) * b.toNat ≤ (bs.length + 1) * 255 := Nat.mul_le_mul_left _ (Nat.le_of_lt_succ b.isLt)
    rw [weightedSum_cons, List.length_cons]; linarith

/-! ### The closed form, modulo any number

The reduced sums and the wrapping accumulators are added up by one recurrence, modulo 65521 and modulo 2^32; the closed
form follows from the recurrence alone. -/

/-- `f` adds a byte to the sum `n1`, then the new `n1` to the sum `n2`, modulo `m` (R91). -/
structure AddsBytes {σ : Type} (m : Nat) (f : σ → Byte → σ) (n1 n2 : σ → Nat) : Prop where
  fst : ∀ q b, n1 (f q b) ≡ n1 q + b.toNat [MOD m]
  snd : ∀ q b, n2 (f q b) ≡ n2 q + (n1 q + b.toNat) [MOD m]

section
variable {σ : Type} {m : Nat} {f : σ → Byte → σ} {n1 n2 : σ → Nat}

theorem AddsBytes.foldl_fst (h : AddsBytes m f n1 n2) (data : List Byte) (q : σ) :
    n1 (data.foldl f q) ≡ n1 q + byteSum data [MOD m] := by
  induction data generalizing q with
  | nil => rfl
  | cons b bs ih =>
    calc n1 (bs.foldl f (f q b))
      _ ≡ n1 (f q b) + byteSum bs [MOD m] := ih _
      _ ≡ n1 q + b.toNat + byteSum bs [MOD m] := (h.fst q b).add_right _
      _ = n1 q + byteSum (b :: bs) := by rw [byteSum_cons, Nat.add_assoc]

theorem AddsBytes.foldl_snd (h : AddsBytes m f n1 n2) (data : List Byte) (q : σ) :
    n2 (data.foldl f q) ≡ n2 q + data.length * n1 q + weightedSum data [MOD m] := by
  induction data generalizing q with
  | nil => simp [weightedSum, Nat.ModEq]
  | cons b bs ih =>
    calc n2 (bs.foldl f (f q b))
      _ ≡ n2 (f q b) + bs.length * n1 (f q b) + weightedSum bs [MOD m] := ih _
      _ ≡ n2 q + (n1 q + b.toNat) + bs.length * (n1 q + b.toNat) + weightedSum bs [MOD m] :=
        ((h.snd q b).add ((h.fst q b).mul_left _)).add_right _
      _ = n2 q + (b :: bs).length * n1 q + weightedSum (b :: bs) := by
        rw [weightedSum_cons, List.length_cons]; ring

end

theorem adlerStep_addsBytes :
    AddsBytes 65521 (fun q b => adlerStep b q.1 q.2) (fun q => q.1.toNat) (fun q => q.2.toNat) where
  fst q b := by rw [adlerStep_fst]; exact Nat.mod_modEq _ _
  snd q b := by rw [adlerStep_snd]; exact (Nat.mod_modEq _ _).trans ((Nat.mod_modEq _ _).add_left _)

theorem batchStep_addsBytes :
    AddsBytes (2 ^ 32) batchStep (fun q => q.1.toNat) (fun q => q.2.toNat) where
  fst q b := by
    rw [batchStep, BitVec.toNat_add, BitVec.toNat_setWidth_of_le (by decide)]; exact Nat.mod_modEq _ _
  snd q b := by
    rw [batchStep, BitVec.toNat_add, BitVec.toNat_add, BitVec.toNat_setWidth_of_le (by decide)]
    exact (Nat.mod_modEq _ _).trans ((Nat.mod_modEq _ _).add_left _)

/-- Reduced sums after a byte sequence (R91). -/
theorem adlerFold_toNat {p : Half × Half} (hp : ReducedSums p) (data : List Byte) :
    (adlerFold p data).1.toNat = (p.1.toNat + byteSum data) % 65521 ∧
    (adlerFold p data).2.toNat = (p.2.toNat + data.length * p.1.toNat + weightedSum data) % 65521 := by
  obtain ⟨h1, h2⟩ := hp.adlerFold data
  exact ⟨(Nat.mod_eq_of_lt h1).symm.trans (adlerStep_addsBytes.foldl_fst data p),
    (Nat.mod_eq_of_lt h2).symm.trans (adlerStep_addsBytes.foldl_snd data p)⟩

/-! ### One reduction per batch (R97) -/

/-- 5552 bytes of 255 on top of the largest reduced sums fit 32 bits (R4, R97). -/
theorem batch_sums_fit {a b : Nat} (ha : a < 65521) (hb : b < 65521) {data : List Byte}
    (hn : data.length ≤ 5552) :
    a + byteSum data < 2 ^ 32 ∧ b + data.length * a + weightedSum data < 2 ^ 32 := by
  have hsum := byteSum_le data
  have hweighted := two_mul_weightedSum_le data
  have hrepeat : data.length * a ≤ 5552 * 65520 := Nat.mul_le_mul hn (by omega)
  have htriangle : data.length * (data.length + 1) ≤ 5552 * 5553 := Nat.mul_le_mul hn (by omega)
  omega

/-- The accumulators of a batch do not wrap, so its one reduction gives the reduced sums. -/
theorem adlerBatch_eq_adlerFold {p : Half × Half} (hp : ReducedSums p) {data : List Byte}
    (hn : data.length ≤ 5552) : adlerBatch p data = adlerFold p data := by
  obtain ⟨hfit1, hfit2⟩ := batch_sums_fit hp.1 hp.2 hn
  obtain ⟨hfold1, hfold2⟩ := adlerFold_toNat hp data
  have hacc1 := batchStep_addsBytes.foldl_fst data (p.1.setWidth 32, p.2.setWidth 32)
  have hacc2 := batchStep_addsBytes.foldl_snd data (p.1.setWidth 32, p.2.setWidth 32)
  simp only [BitVec.toNat_setWidth_of_le (show 16 ≤ 32 by decide)] at hacc1 hacc2
  refine sums_ext ?_ ?_
  · rw [hfold1, ← hacc1.eq_of_lt_of_lt (BitVec.isLt _) hfit1]
    simp only [adlerBatch, Config.adlerMod, BitVec.toNat_ofNat]; omega
  · rw [hfold2, ← hacc2.eq_of_lt_of_lt (BitVec.isLt _) hfit2]
    simp only [adlerBatch, Config.adlerMod, BitVec.toNat_ofNat]; omega

theorem foldl_adlerBatch {batches : List (List Byte)} (hn : ∀ b ∈ batches, b.length ≤ 5552) {p : Half × Half}
    (hp : ReducedSums p) : batches.foldl adlerBatch p = adlerFold p batches.flatten := by
  induction batches generalizing p with
  | nil => rfl
  | cons b bs ih =>
    obtain ⟨hb, hbs⟩ := List.forall_mem_cons.1 hn
    rw [List.foldl_cons, adlerBatch_eq_adlerFold hp hb, ih hbs (hp.adlerFold b), List.flatten_cons, adlerFold_append]

end Sys2Proof.Machine
end

section
/-! PROOFS. The statements of spec/40_adler32.md. -/

namespace Sys2Proof.Proofs

open Sys2Proof.Machine

/-- Settles O1: the low and the high half of the value, as numbers. -/
theorem adlLoadTakesBothHalvesRaw : Obligations.AdlLoadTakesBothHalvesRaw :=
  ⟨fun w => congrArg (some ∘ Instr.adlLoad) (BitVec.ofNat_toNat 32 w).symm,
    fun v s => ⟨_, exec_adlLoad v s, sumsOf_fst_toNat v, sumsOf_snd_toNat v, rfl⟩⟩

/-- Settles O2: the recurrences of one push. -/
theorem adlPushAddsByteThenNewSum : Obligations.AdlPushAddsByteThenNewSum := by
  refine ⟨fun w => congrArg (some ∘ Instr.adlPush) (BitVec.ofNat_toNat 8 w).symm,
    fun b s => ⟨_, exec_adlPush b s, adlerStep_fst b s.s1 s.s2, ?_, ?_⟩⟩
  · exact (adlerStep_fst b s.s1 s.s2).symm ▸ adlerStep_snd b s.s1 s.s2
  · obtain ⟨h1, h2⟩ := adlerStep_reduced b s.s1 s.s2
    exact ⟨h1, h2, rfl⟩

/-- Settles O3: zero-extension keeps the number of the checksum. -/
theorem adlReadAnswersBothSums : Obligations.AdlReadAnswersBothSums :=
  fun s => ⟨_, exec_adlRead s, (toNat_setWidth_word (by decide) _).trans (checksum_toNat s), rfl⟩

/-- Settles O4: the pushes are the fold, by induction on the data. -/
theorem adlerCommandsComputeTheFunction : Obligations.AdlerCommandsComputeTheFunction :=
  fun c data s => ⟨_, execAll_adlerCommands c data s, toNat_setWidth_word (by decide) _, rfl⟩

/-- Settles O5: the halves of the seed are packed as they were. -/
theorem adlerOfNothingIsTheSeed : Obligations.AdlerOfNothingIsTheSeed := append_sumsOf

/-- Settles O6: the sums survive packing into a checksum, and a fold goes on where another stopped. -/
theorem adlerConcatenates : Obligations.AdlerConcatenates := by
  intro c x y
  simp only [adler32, sumsOf_append, adlerFold_append]

/-- Settles O7: the seed 1 is the reduced pair of sums 1 and 0. -/
theorem adlerClosedFormFromSeedOne : Obligations.AdlerClosedFormFromSeedOne := by
  intro data
  have hseed : ReducedSums (sumsOf 1) := ⟨by decide, by decide⟩
  obtain ⟨h1, h2⟩ := adlerFold_toNat hseed data
  rw [← sumsOf_fst_toNat, ← sumsOf_snd_toNat, sumsOf_adler32]
  refine ⟨h1, h2.trans ?_⟩
  rw [show (sumsOf 1).1.toNat = 1 from rfl, show (sumsOf 1).2.toNat = 0 from rfl, Nat.mul_one, Nat.zero_add]
  rfl

/-- Settles O8: batch after batch, each of which gives the reduced sums again. -/
theorem deferredReductionIsInvisible : Obligations.DeferredReductionIsInvisible :=
  fun _ _ h1 h2 hn => foldl_adlerBatch hn ⟨h1, h2⟩

/-- Settles O9: the first push forgets all but the seed's halves modulo 65521. -/
theorem nonCanonicalSeedCountsReduced : Obligations.NonCanonicalSeedCountsReduced := by
  refine ⟨append_sumsOf, fun c d data hne h1 h2 => ?_⟩
  obtain ⟨b, bs, rfl⟩ := List.exists_cons_of_ne_nil hne
  rw [← sumsOf_fst_toNat, ← sumsOf_fst_toNat] at h1
  rw [← sumsOf_snd_toNat, ← sumsOf_snd_toNat] at h2
  have hfirst : adlerStep b (sumsOf c).1 (sumsOf c).2 = adlerStep b (sumsOf d).1 (sumsOf d).2 :=
    adlerStep_congr b (h1 ▸ (Nat.mod_modEq _ _).symm) (h2 ▸ (Nat.mod_modEq _ _).symm)
  simp only [adler32, adlerFold, List.foldl_cons, hfirst]

end Sys2Proof.Proofs
end

section
/-! SUPPORT. A turn of DEC as a whole (spec/41_decoder_control.md R112): the opcode it decodes ends in one of two ways,
the state a stream can touch (R121), what a completed opcode moves forward, and that runs end (R118). -/

namespace Sys2Proof.Machine

open Sys2Proof.Claim

/-! ### The opcode at `IP` -/

theorem dialectOf_eq_of_dialectIs {s : State} {d : Dialect} (h : dialectIs s d) : dialectOf s = d := by
  rcases h with ⟨hf, rfl⟩ | ⟨hf, hl, rfl⟩ | ⟨hf, hl, rfl⟩ <;> simp [dialectOf, *]

/-- A first byte with an illegal marker is rejected before any other byte is looked at (R67, R213). -/
theorem decode_first_of_illegal_marker {m : BitVec 3} (hm : 2 ≤ m.toNat) (x : BitVec 5) (bs : List Byte) :
    decode .first (tagByte m x :: bs) = .reject (.illegalLevel m) := by
  rw [decode, decodeFirst, tagLen_tagByte, if_pos hm]

/-- The state an opcode runs from: the state itself, or with the level of a first opcode set. -/
def LevelKnown (s u : State) : Prop := u = s ∨ ∃ m, u = setLevel m s

/-- A decoded opcode ends in one of the two ways: what decodes is well formed and of the dialect. -/
theorem exec_decoded_ends {s t : State} {i : Instr} {rest : List Byte}
    (hd : decode (dialectOf s) (streamTail s) = .instr i rest) (hx : exec i s = .next t) :
    ∃ u, LevelKnown s u ∧ OpcodeEnds s u t := by
  obtain ⟨hwf, hfits, -⟩ := spells_of_decode hd
  by_cases hfirst : dialectOf s = .first
  · obtain ⟨m, h⟩ := exec_first_ends hwf (hfirst ▸ hfits) hx
    exact ⟨_, .inr ⟨m, rfl⟩, h⟩
  · exact ⟨s, .inl rfl, exec_later_ends hwf hfirst hfits hx⟩

/-- A turn of a running DEC raises, or completes an opcode of at least two bytes with at least one byte of output
within the stream and the capacity, and then the stop rule applies. -/
theorem decTurn_ends {s t : State} (hb : s.st = .busy) (h : decTurn s = .next t) :
    ∃ u, LevelKnown s u ∧
      ((∃ code, t = raiseDecodeError code s.ip u) ∨
        ∃ n len m, 1 ≤ n ∧ 1 ≤ len ∧ s.ip.toNat + 1 + n ≤ s.inLen.toNat ∧ s.op.toNat + len ≤ s.outCap.toNat ∧
          OutWrite s m len ∧ t = stopRule (advance (1 + n) len (putOut m len u))) := by
  rcases decTurn_cases s with ⟨hn, -⟩ | ⟨-, i, rest, v, hd, hx, e⟩ | ⟨-, r, -, e⟩
  · exact absurd hb hn
  · cases e.symm.trans h
    obtain ⟨u, hu, ⟨code, -, -, rfl⟩ | ⟨n, len, m, hn, hlen, hin, hout, hm, rfl⟩⟩ := exec_decoded_ends hd hx
    · exact ⟨u, hu, .inl ⟨code, rfl⟩⟩
    · exact ⟨u, hu, .inr ⟨n, len, m, hn, hlen, hin, hout, hm, rfl⟩⟩
  · cases e.symm.trans h
    obtain ⟨code, u, e, -, hu⟩ := fetchError_cases r s
    exact ⟨u, hu, .inl ⟨code, e⟩⟩

/-! ### The state a stream can touch (R121) -/

/-- `s` with the run state of `t`: all that R121 lets a stream change. -/
def withRunOf (t s : State) : State :=
  { s with
    ip := t.ip, op := t.op, first := t.first, lv2 := t.lv2, outBuf := t.outBuf, outExtent := t.outExtent,
    st := t.st, outLen := t.outLen, errCode := t.errCode, errIp := t.errIp, errOp := t.errOp }

/-- Everything but the run state is the same. -/
def OnlyRunState (s t : State) : Prop := t = withRunOf t s

namespace OnlyRunState

variable {s t u : State}

theorem trans (h : OnlyRunState s t) (h' : OnlyRunState t u) : OnlyRunState s u :=
  Eq.trans h' (congrArg (withRunOf u) h :)

theorem inputs (h : OnlyRunState s t) : t.inputs = s.inputs := (congrArg State.inputs h :)

theorem inLen (h : OnlyRunState s t) : t.inLen = s.inLen := (congrArg State.inLen h :)

theorem of_levelKnown (h : LevelKnown s u) : OnlyRunState s u := by
  rcases h with rfl | ⟨m, rfl⟩ <;> rfl

theorem raiseDecodeError (c : ErrCode) (a : Word) (s : State) : OnlyRunState s (raiseDecodeError c a s) := rfl

theorem advance (n len : Nat) (s : State) : OnlyRunState s (advance n len s) := rfl

theorem putOut (m : Memory) (len : Nat) (s : State) : OnlyRunState s (putOut m len s) := by
  unfold Machine.putOut; split <;> rfl

theorem stopRule (s : State) : OnlyRunState s (stopRule s) := by
  unfold Machine.stopRule; split <;> rfl

theorem decTurn (h : decTurn s = .next t) : OnlyRunState s t := by
  by_cases hb : s.st = .busy
  · obtain ⟨u, hu, ⟨code, rfl⟩ | ⟨n, len, m, -, -, -, -, -, rfl⟩⟩ := decTurn_ends hb h
    · exact (of_levelKnown hu).trans (raiseDecodeError code s.ip u)
    · exact (((of_levelKnown hu).trans (putOut m len u)).trans (advance _ len _)).trans (stopRule _)
  · cases (decTurn_of_not_busy hb).symm.trans h
    rfl

end OnlyRunState

/-! ### Progress (R118, R182, R183) -/

/-- What an opcode that completes moves forward, and what it leaves of the output. -/
structure MovesForward (s t : State) : Prop where
  ip_add_two_le : s.ip.toNat + 2 ≤ t.ip.toNat
  ip_le : t.ip.toNat ≤ s.inLen.toNat
  op_lt : s.op.toNat + 1 ≤ t.op.toNat
  op_le : t.op.toNat ≤ s.outCap.toNat
  earlier : ∀ a, a < s.op.toNat → outByte t a = outByte s a

/-- The stop rule moves no cursor and writes no byte. -/
theorem MovesForward.stopRule {s t : State} (h : MovesForward s t) : MovesForward s (stopRule t) := by
  rcases stopRule_cases t with ⟨-, -, e⟩ | ⟨-, e⟩
  · rw [e]; exact ⟨h.ip_add_two_le, h.ip_le, h.op_lt, h.op_le, h.earlier⟩
  · rw [e]; exact h

/-- `OUT` after an opcode that completes: the new content in a normal run, the old one in a validate-only run. -/
theorem outByte_advance_putOut (n len : Nat) (m : Memory) (s : State) (a : Nat) :
    outByte (advance n len (putOut m len s)) a = outMemByte s.era (if s.mode then s.outBuf else m) a := by
  simp [outByte]

theorem OutWrite.outByte_before {s u : State} {m : Memory} {len : Nat} (hm : OutWrite s m len)
    (hu : LevelKnown s u) (n : Nat) {a : Nat} (ha : a < s.op.toNat) :
    outByte (advance n len (putOut m len u)) a = outByte s a := by
  have hkeep : outMemByte s.era (if s.mode then s.outBuf else m) a = outByte s a := by
    split
    · rfl
    · simp only [outByte, outMemByte, hm.outside a (.inl ha)]
  rw [outByte_advance_putOut]
  rcases hu with rfl | ⟨l, rfl⟩ <;> exact hkeep

theorem movesForward_of_write {s u : State} (hu : LevelKnown s u) {n len : Nat} {m : Memory} (hn : 1 ≤ n)
    (hlen : 1 ≤ len) (hin : s.ip.toNat + 1 + n ≤ s.inLen.toNat) (hout : s.op.toNat + len ≤ s.outCap.toNat)
    (hm : OutWrite s m len) : MovesForward s (advance (1 + n) len (putOut m len u)) := by
  have hcursors : u.ip = s.ip ∧ u.op = s.op := by rcases hu with rfl | ⟨l, rfl⟩ <;> exact ⟨rfl, rfl⟩
  have hip : (toWord (s.ip.toNat + (1 + n))).toNat = s.ip.toNat + (1 + n) :=
    toWord_toNat (w := s.inLen) (by omega)
  have hop : (toWord (s.op.toNat + len)).toNat = s.op.toNat + len := toWord_toNat hout
  refine ⟨?_, ?_, ?_, ?_, fun a => hm.outByte_before hu (1 + n)⟩ <;>
    simp only [advance_ip, advance_op, putOut_ip, putOut_op, hcursors, hip, hop] <;> omega

/-- A turn that does not raise moves forward. -/
theorem decTurn_movesForward {s t : State} (hb : s.st = .busy) (h : decTurn s = .next t) (hne : t.st ≠ .error) :
    MovesForward s t := by
  obtain ⟨u, hu, ⟨code, rfl⟩ | ⟨n, len, m, hn, hlen, hin, hout, hm, rfl⟩⟩ := decTurn_ends hb h
  · exact absurd rfl hne
  · exact (movesForward_of_write hu hn hlen hin hout hm).stopRule

/-- A turn that leaves DEC running leaves it a tag and one more byte (R116). -/
theorem decTurn_ip_of_busy {s t : State} (hb : s.st = .busy) (h : decTurn s = .next t) (ht : t.st = .busy) :
    t.ip.toNat + 2 ≤ t.inLen.toNat := by
  obtain ⟨u, -, ⟨code, rfl⟩ | ⟨n, len, m, -, -, -, -, -, rfl⟩⟩ := decTurn_ends hb h
  · cases ht
  · rcases stopRule_cases (advance (1 + n) len (putOut m len u)) with ⟨-, -, e⟩ | ⟨hroom, e⟩
    · rw [e] at ht; cases ht
    · rw [e] at ht ⊢; exact hroom ht

/-! ### Runs -/

theorem run_succ {s t : State} (h : step s = .next t) (n : Nat) :
    Sys2Proof.core.run (n + 1) s = Sys2Proof.core.run n t := by
  simp only [Host.Core.run, Host.Check.core_step, h]

/-- A relation that one step on each side keeps is kept by any number of steps. -/
theorem run_keeps_relation {R : State → State → Prop}
    (hR : ∀ {s t s' t'}, R s t → step s = .next s' → step t = .next t' → R s' t') (n : Nat) {s t s' t' : State}
    (h : R s t) (hs : Sys2Proof.core.run n s = .next s') (ht : Sys2Proof.core.run n t = .next t') : R s' t' := by
  induction n generalizing s t with
  | zero => cases hs; cases ht; exact h
  | succ n ih =>
    obtain ⟨u, hu⟩ := step_answers s
    obtain ⟨v, hv⟩ := step_answers t
    exact ih (hR h hu hv) ((run_succ hu n).symm.trans hs) ((run_succ hv n).symm.trans ht)

/-- With a byte at `IP`, half the bytes that remain, rounded up, are steps enough to end the run: each step takes two
of them, and one that leaves DEC running leaves it two more. -/
theorem run_ends {k : Nat} {s : State} (h : decMoves s) (hip : s.ip.toNat < s.inLen.toNat)
    (hk : (s.inLen.toNat - s.ip.toNat + 1) / 2 ≤ k) :
    ∃ n t, n ≤ k ∧ Sys2Proof.core.run n s = .next t ∧ (t.st = .done ∨ t.st = .error) := by
  induction k generalizing s with
  | zero => omega
  | succ k ih =>
    obtain ⟨hin, hb⟩ := h
    obtain ⟨t, hstep⟩ := step_answers s
    have hturn : decTurn s = .next t := (step_of_no_input hin).symm.trans hstep
    rcases decTurn_st_of_busy hb hturn with ht | ht
    · have hframe := OnlyRunState.decTurn hturn
      have hmoved := (decTurn_movesForward hb hturn (by rw [ht]; decide)).ip_add_two_le
      have hroom := decTurn_ip_of_busy hb hturn ht
      have hlen := hframe.inLen
      rw [hlen] at hroom
      obtain ⟨n, v, hn, hrun, hend⟩ :=
        ih ⟨hframe.inputs.trans hin, ht⟩ (by rw [hlen]; omega) (by rw [hlen]; omega)
      exact ⟨n + 1, v, by omega, (run_succ hstep n).trans hrun, hend⟩
    · exact ⟨1, t, by omega, run_succ hstep 0, ht⟩

/-- A running DEC has its tag in the stream (R116). -/
theorem State.Inv.ip_lt_inLen {p : Config.Params} {s : State} (h : s.Inv p) (hb : s.st = .busy) :
    s.ip.toNat < s.inLen.toNat := by
  cases hf : s.first with
  | true =>
    obtain ⟨hip, -, -, hlen⟩ := h.busyFirst hb hf
    rw [hip]; exact hlen
  | false =>
    have := (h.busyLater hb hf).2
    omega

/-! ### A literal run that completes (R131) -/

theorem literalRun_done {lits : List Byte} {s : State} (hin : s.ip.toNat + 1 + lits.length ≤ s.inLen.toNat)
    (hout : s.op.toNat + lits.length ≤ s.outCap.toNat) : literalDone lits s (literalRun lits s) := by
  rcases literalRun_cases lits s with ⟨h, -⟩ | ⟨-, h, -⟩ | ⟨-, -, e⟩
  · omega
  · omega
  rw [e]
  refine ⟨?ip, ?op, fun hmode i hi => ?inside, fun a ha => ?outside, fun hmode => ?vonly, ?frame⟩
  case ip =>
    have := toWord_toNat (n := s.ip.toNat + (1 + lits.length)) (w := s.inLen) (by omega)
    rw [advance_ip, putOut_ip]; omega
  case op =>
    rw [advance_op, putOut_op]
    exact toWord_toNat hout
  case inside => simp [outByte_advance_putOut, outMemByte, hmode, lookup_storeBytes_inside _ _ _ hi]
  case outside =>
    rw [outByte_advance_putOut]
    split
    · rfl
    · simp only [outByte, outMemByte, lookup_storeBytes_outside s.outBuf s.op.toNat lits ha]
  case vonly => simp [hmode]
  case frame => unfold onlyCursorsAndOut putOut; split <;> rfl

end Sys2Proof.Machine
end

section
/-! SUPPORT. What a run depends on (spec/41_decoder_control.md R120, spec/45_validator.md R183): every operation of DEC,
done to two states that agree on the run, gives states that agree on it. -/

namespace Sys2Proof.Machine

open Sys2Proof.Claim

/-- The registers of a run; everything else, both buffers among it, blanked out. -/
def runView (s : State) : State :=
  { s with s1 := 0, s2 := 0, inBuf := [], outBuf := [], hostRd := 0, era := 0, runs := 0, outExtent := 0 }

/-- Two states that agree on a run: `sameRun`, with the registers as one equation, so that an operation on registers
keeps it by congruence. -/
structure AgreesOnRun (s t : State) : Prop where
  noTurns : s.inputs = []
  view : runView s = runView t
  stream : ∀ a, a < s.inLen.toNat → inByte s a = inByte t a
  output : s.mode = false → ∀ a, a < s.op.toNat → outByte s a = outByte t a

theorem agreesOnRun_of_sameRun {s t : State} (h : sameRun s t) : AgreesOnRun s t := by
  obtain ⟨hin, hin', hst, hip, hop, hfirst, hlv2, hinLen, houtCap, hmode, houtLen, hcode, herrIp, herrOp, hstream,
    hout⟩ := h
  have hview : runView s = runView t := by simp [runView, *]
  exact ⟨hin, hview, hstream, hout⟩

theorem AgreesOnRun.sameRun {s t : State} (h : AgreesOnRun s t) : sameRun s t := by
  obtain ⟨hin, hview, hstream, hout⟩ := h
  simp only [runView, State.mk.injEq, true_and, and_true] at hview
  simp_all [Claim.sameRun]

/-! ### The bytes an opcode leaves below the new `OP` -/

theorem outMemByte_storeBytes_congr {s t : State} {n : Nat} (h : ∀ a, a < n → outByte s a = outByte t a)
    (lits : List Byte) {a : Nat} (ha : a < n + lits.length) :
    outMemByte s.era (storeBytes s.outBuf n lits) a = outMemByte t.era (storeBytes t.outBuf n lits) a := by
  by_cases hn : a < n
  · simpa only [outByte, outMemByte, lookup_storeBytes_outside _ _ _ (.inl hn)] using h a hn
  · obtain ⟨i, rfl⟩ := Nat.exists_eq_add_of_le (Nat.not_lt.1 hn)
    simp only [outMemByte, lookup_storeBytes_inside _ _ _ (show i < lits.length by omega), Option.getD_some]

/-- A match copy reads no byte but those before its destination. -/
theorem outMemByte_copyForward_congr {s t : State} {n : Nat} (h : ∀ a, a < n → outByte s a = outByte t a)
    {dist : Nat} (hpos : 1 ≤ dist) (hdist : dist ≤ n) (len : Nat) {a : Nat} (ha : a < n + len) :
    outMemByte s.era (copyForward s.era s.outBuf n (n - dist) len) a =
      outMemByte t.era (copyForward t.era t.outBuf n (n - dist) len) a := by
  by_cases hn : a < n
  · simpa only [outByte, outMemByte, lookup_copyForward_outside _ _ _ _ _ (.inl hn)] using h a hn
  · obtain ⟨i, rfl⟩ := Nat.exists_eq_add_of_le (Nat.not_lt.1 hn)
    have hi : i < len := by omega
    have hmod : i % dist < dist := Nat.mod_lt i hpos
    rw [copyForward_cyclic _ _ len hpos hdist hi, copyForward_cyclic _ _ len hpos hdist hi]
    exact h _ (by omega)

/-! ### Registers -/

theorem runView_advance_putOut (n len : Nat) (m : Memory) (s : State) :
    runView (advance n len (putOut m len s)) = advance n len (runView s) := by
  unfold putOut; split <;> rfl

theorem inByte_advance_putOut (n len : Nat) (m : Memory) (s : State) (a : Nat) :
    inByte (advance n len (putOut m len s)) a = inByte s a := by
  simp [inByte]

namespace AgreesOnRun

variable {s t s' t' : State}

theorem ip (h : AgreesOnRun s t) : s.ip = t.ip := (congrArg State.ip h.view :)

theorem op (h : AgreesOnRun s t) : s.op = t.op := (congrArg State.op h.view :)

theorem st (h : AgreesOnRun s t) : s.st = t.st := (congrArg State.st h.view :)

theorem inLen (h : AgreesOnRun s t) : s.inLen = t.inLen := (congrArg State.inLen h.view :)

theorem mode (h : AgreesOnRun s t) : s.mode = t.mode := (congrArg State.mode h.view :)

/-- Both states take the same branch of a test of the registers. -/
theorem ite {a b a' b' : State} {c d : Prop} [Decidable c] [Decidable d] (hcd : c = d)
    (hpos : AgreesOnRun a a') (hneg : ¬ c → AgreesOnRun b b') :
    AgreesOnRun (if c then a else b) (if d then a' else b') := by
  subst hcd
  split
  · exact hpos
  · exact hneg ‹_›

theorem raiseDecodeError (h : AgreesOnRun s t) (c : ErrCode) :
    AgreesOnRun (raiseDecodeError c s.ip s) (raiseDecodeError c t.ip t) :=
  ⟨h.noTurns, congrArg (fun v : State => Machine.raiseDecodeError c v.ip v) h.view, h.stream, h.output⟩

theorem setLevel (h : AgreesOnRun s t) (m : BitVec 3) : AgreesOnRun (setLevel m s) (setLevel m t) :=
  ⟨h.noTurns, congrArg (Machine.setLevel m) h.view, h.stream, h.output⟩

theorem stopRule (h : AgreesOnRun s t) : AgreesOnRun (stopRule s) (stopRule t) :=
  ite (congrArg (fun v : State => v.st = .busy ∧ v.inLen.toNat < v.ip.toNat + 2) h.view :)
    ⟨h.noTurns, congrArg (fun v : State => { v with st := .done, outLen := v.op }) h.view, h.stream, h.output⟩ fun _ => h

/-! ### Opcodes -/

theorem advance_putOut (h : AgreesOnRun s t) (n : Nat) {m m' : Memory} {len : Nat}
    (hfit : s.op.toNat + len ≤ s.outCap.toNat)
    (hm : s.mode = false → ∀ a, a < s.op.toNat + len → outMemByte s.era m a = outMemByte t.era m' a) :
    AgreesOnRun (advance n len (putOut m len s)) (advance n len (putOut m' len t)) where
  noTurns := by simp [h.noTurns]
  view := by rw [runView_advance_putOut, runView_advance_putOut, h.view]
  stream a ha := by
    rw [inByte_advance_putOut, inByte_advance_putOut]
    exact h.stream a (by simpa using ha)
  output hmode a ha := by
    have hs : s.mode = false := by simpa using hmode
    rw [advance_op, putOut_op, toWord_toNat hfit] at ha
    rw [outByte_advance_putOut, outByte_advance_putOut, ← h.mode, hs]
    exact hm hs a ha

theorem literalRun (h : AgreesOnRun s t) (lits : List Byte) :
    AgreesOnRun (literalRun lits s) (literalRun lits t) := by
  refine ite (congrArg (fun v : State => checkLitIn v (v.ip.toNat + 1) lits.length = false) h.view :)
    (h.raiseDecodeError _) fun _ => ?_
  refine ite (congrArg (fun v : State => checkOut v v.op.toNat lits.length = false) h.view :)
    (h.raiseDecodeError _) fun hout => ?_
  refine h.advance_putOut _ ((checkOut_iff s _ _).1 (Bool.not_eq_false _ ▸ hout)) fun hmode a ha => ?_
  rw [← h.op]
  exact outMemByte_storeBytes_congr (h.output hmode) lits ha

theorem matchCopy (h : AgreesOnRun s t) (n len : Nat) {dist : Nat} (hpos : 1 ≤ dist) :
    AgreesOnRun (matchCopy n len dist s) (matchCopy n len dist t) := by
  refine ite (congrArg (fun v : State => operandsPresent v n = false) h.view :) (h.raiseDecodeError _) fun _ => ?_
  refine ite (congrArg (fun v : State => checkOut v v.op.toNat len = false) h.view :)
    (h.raiseDecodeError _) fun hout => ?_
  refine ite (congrArg (fun v : State => checkRef v.op.toNat dist = false) h.view :)
    (h.raiseDecodeError _) fun href => ?_
  have hdist : dist ≤ s.op.toNat := (checkRef_iff _ _).1 (Bool.not_eq_false _ ▸ href)
  refine h.advance_putOut _ ((checkOut_iff s _ _).1 (Bool.not_eq_false _ ▸ hout)) fun hmode a ha => ?_
  rw [← h.op]
  exact outMemByte_copyForward_congr (h.output hmode) hpos hdist len ha

/-- Every instruction in `BUSY`: a command of the checksum unit is no part of the run, and a start is ignored. -/
theorem exec (h : AgreesOnRun s t) (hb : s.st = .busy) {i : Instr} (hs : exec i s = .next s')
    (ht : exec i t = .next t') : AgreesOnRun s' t' := by
  cases i with
  | hdr m lits =>
    cases hs; cases ht
    exact ite rfl (h.raiseDecodeError _) fun _ => (h.setLevel m).literalRun lits
  | lit lits => cases hs; cases ht; exact h.literalRun lits
  | m1s l hi lo => cases hs; cases ht; exact h.matchCopy _ _ (nearDist_pos hi lo)
  | m1l hi ext lo => cases hs; cases ht; exact h.matchCopy _ _ (nearDist_pos hi lo)
  | m2ns l hi lo => cases hs; cases ht; exact h.matchCopy _ _ (nearDist_pos hi lo)
  | m2nl hi k c lo => cases hs; cases ht; exact h.matchCopy _ _ (nearDist_pos hi lo)
  | m2fs l exhi exlo => cases hs; cases ht; exact h.matchCopy _ _ (farDist_pos exhi exlo)
  | m2fl k c exhi exlo => cases hs; cases ht; exact h.matchCopy _ _ (farDist_pos exhi exlo)
  | adlLoad v => cases hs; cases ht; exact ⟨h.noTurns, h.view, h.stream, h.output⟩
  | adlPush b => cases hs; cases ht; exact ⟨h.noTurns, h.view, h.stream, h.output⟩
  | adlRead => cases hs; cases ht; exact ⟨h.noTurns, h.view, h.stream, h.output⟩
  | decStart =>
    cases (execDecStart_of_busy hb).symm.trans hs
    cases (execDecStart_of_busy (h.st ▸ hb)).symm.trans ht
    exact h

/-! ### The step -/

theorem fetchError (h : AgreesOnRun s t) (r : DecodeReject) : AgreesOnRun (fetchError r s) (fetchError r t) := by
  cases r with
  | noTag => exact h.raiseDecodeError _
  | illegalLevel m => exact h.raiseDecodeError _
  | truncated o =>
    cases o with
    | none => exact h.raiseDecodeError _
    | some m => exact (h.setLevel m).raiseDecodeError _

/-- DEC reads the same bytes in the same dialect. -/
theorem decode_eq (h : AgreesOnRun s t) :
    decode (dialectOf s) (streamTail s) = decode (dialectOf t) (streamTail t) := by
  have hdialect : dialectOf s = dialectOf t := (congrArg dialectOf h.view :)
  have htail : streamTail s = streamTail t := by
    rw [streamTail, streamTail, ← h.ip, ← h.inLen]
    refine List.map_congr_left fun j hj => h.stream _ ?_
    have := List.mem_range.1 hj
    omega
  rw [hdialect, htail]

theorem decTurn (h : AgreesOnRun s t) (hs : decTurn s = .next s') (ht : decTurn t = .next t') :
    AgreesOnRun s' t' := by
  rcases decTurn_cases s with ⟨hb, e⟩ | ⟨hb, i, rest, u, hd, hx, e⟩ | ⟨hb, r, hd, e⟩
  · cases e.symm.trans hs
    cases (decTurn_of_not_busy (h.st ▸ hb)).symm.trans ht
    exact h
  · obtain ⟨v, hv⟩ := exec_answers i t
    have hturn : Machine.decTurn t = .next (Machine.stopRule v) := by
      rw [decTurn_of_instr (h.st ▸ hb) (h.decode_eq ▸ hd), hv]; rfl
    cases e.symm.trans hs
    cases hturn.symm.trans ht
    exact (h.exec hb hx hv).stopRule
  · cases e.symm.trans hs
    cases (decTurn_of_reject (h.st ▸ hb) (h.decode_eq ▸ hd)).symm.trans ht
    exact h.fetchError r

theorem step (h : AgreesOnRun s t) (hs : step s = .next s') (ht : step t = .next t') : AgreesOnRun s' t' :=
  have hin : t.inputs = [] := (congrArg State.inputs h.view :).symm.trans h.noTurns
  h.decTurn ((step_of_no_input h.noTurns).symm.trans hs) ((step_of_no_input hin).symm.trans ht)

end AgreesOnRun

end Sys2Proof.Machine
end

section
/-! PROOFS. The statements of spec/41_decoder_control.md: the start of a run, its steps, and its end. -/

namespace Sys2Proof.Proofs

open Sys2Proof.Machine Sys2Proof.Claim

/-! ### Starting a run -/

/-- Settles O10: `DEC_START` is ignored in `BUSY`; else each of the three ways to start clears the per-run registers,
and they exclude each other. -/
theorem decStartBeginsOrEndsARun : Obligations.DecStartBeginsOrEndsARun := by
  refine ⟨fun w hodd => (decodeHost_decCmd w).trans (if_pos hodd), fun s => ⟨execDecStart_of_busy, fun hb => ?_⟩⟩
  refine ⟨_, execDecStart_of_not_busy hb, ?_⟩
  rcases startRun_cases Config.params s with ⟨hover, e⟩ | ⟨hin, hout, hzero, e⟩ | ⟨hin, hout, hne, e⟩ <;> rw [e]
  · exact ⟨rfl, rfl, rfl, rfl, rfl, rfl, rfl, fun _ => ⟨rfl, rfl⟩, fun _ _ => by omega, rfl⟩
  · exact ⟨rfl, rfl, rfl, rfl, rfl, rfl, rfl, fun _ => by omega,
      fun _ _ => ⟨rfl, fun _ => rfl, fun hne => absurd hzero hne⟩, rfl⟩
  · exact ⟨rfl, rfl, rfl, rfl, rfl, rfl, rfl, fun _ => by omega,
      fun _ _ => ⟨rfl, fun hzero => absurd hzero hne, fun _ => rfl⟩, rfl⟩

/-! ### The first opcode -/

/-- Settles O12: the tag gives back the marker and the count; `HDR` itself is `LIT` after the level is set. -/
theorem hdrSetsTheLevelThenRunsAsLit : Obligations.HdrSetsTheLevelThenRunsAsLit := by
  refine ⟨fun m x lits rest hm hlen => ?decoded, fun m x bs s hm ⟨hin, hb⟩ hfirst hrest => ?raises,
    fun m lits s => ⟨fun hm => ?illegal, fun hm => ?level1, fun hm => ?level2⟩⟩
  case decoded =>
    exact decodeFirst_eq_instr_iff.2 ⟨(tagLen_tagByte m x).symm ▸ hm, lits, (tagLow_tagByte m x).symm ▸ hlen, rfl,
      congrArg (Instr.hdr · lits) (tagLen_tagByte m x).symm⟩
  case raises =>
    have hreject : decode (dialectOf s) (streamTail s) = .reject (.illegalLevel m) := by
      rw [show streamTail s = tagByte m x :: bs from hrest, dialectOf, if_pos hfirst]
      exact decode_first_of_illegal_marker hm x bs
    rw [step_of_no_input hin, decTurn_of_reject hb hreject]
    rfl
  case illegal => exact congrArg Host.Outcome.next (if_pos hm)
  case level1 => cases BitVec.eq_of_toNat_eq (y := 0) hm; rfl
  case level2 => cases BitVec.eq_of_toNat_eq (y := 1) hm; rfl

/-- Settles O13: the literal run completes in the state with the level set. -/
theorem hdrCompletes : Obligations.HdrCompletes := by
  intro m lits s hm hin hout
  have hdone : literalDone lits (setLevel m s) (literalRun lits (setLevel m s)) := literalRun_done hin hout
  have ⟨_, _, _, _, _, hframe⟩ := hdone
  have hfirst : (literalRun lits (setLevel m s)).first = false := (congrArg State.first hframe :)
  have hlv2 : (literalRun lits (setLevel m s)).lv2 = m.getLsbD 0 := (congrArg State.lv2 hframe :)
  have hbit : m.getLsbD 0 = decide (m.toNat % 2 = 1) := Nat.testBit_zero m.toNat
  refine ⟨_, congrArg Host.Outcome.next (if_neg (Nat.not_le.2 hm)), hfirst, ?level, ?done⟩
  case level => rw [hlv2, hbit, decide_eq_true_iff]; omega
  case done => rw [hlv2, hfirst]; exact hdone

/-! ### One step -/

/-- Settles O20: DEC's turn, with the dialect named. -/
theorem stepRunsTheDecodedOpcode : Obligations.StepRunsTheDecodedOpcode := by
  intro s t d i rest ⟨hin, hb⟩ hd hdecode hx
  rw [← dialectOf_eq_of_dialectIs hd] at hdecode
  rw [step_of_no_input hin, decTurn_of_instr hb hdecode, hx]
  rfl

/-- Settles O27: an opcode that completes has at least one operand byte and at least one byte of output, and writes
nothing below `OP`. -/
theorem stepsMoveForward : Obligations.StepsMoveForward := by
  intro s t ⟨hin, hb⟩ hstep hne
  obtain ⟨h1, h2, h3, h4, h5⟩ := decTurn_movesForward hb ((step_of_no_input hin).symm.trans hstep) hne
  exact ⟨h1, h2, h3, h4, h5⟩

/-- Settles O28: each part of a turn of DEC keeps all but the run state. -/
theorem streamTouchesOnlyRunState : Obligations.StreamTouchesOnlyRunState :=
  fun _ _ hin hstep => OnlyRunState.decTurn ((step_of_no_input hin).symm.trans hstep)

/-! ### Runs -/

/-- Settles O34: the invariant puts the tag into the stream, and from there each step takes two bytes. -/
theorem everyRunEnds : Obligations.EveryRunEnds :=
  fun _ _ hinv hmoves => run_ends hmoves (hinv.ip_lt_inLen hmoves.2) le_rfl

/-- Settles O35: agreement on the run is kept by each step, so by any number of steps. -/
theorem runDependsOnlyOnItsStream : Obligations.RunDependsOnlyOnItsStream := by
  intro n s t s' t' h hs ht
  exact (run_keeps_relation AgreesOnRun.step n (agreesOnRun_of_sameRun h) hs ht).sameRun

end Sys2Proof.Proofs
end

section
/-! PROOFS. The statement of spec/42_literal.md: the literal run. -/

namespace Sys2Proof.Proofs

open Sys2Proof.Machine Sys2Proof.Claim

/-- Settles O11: the tag gives back the count; the three ways a literal run can go exclude each other. -/
theorem litCopiesItsBytesOrRaises : Obligations.LitCopiesItsBytesOrRaises := by
  refine ⟨fun d x lits rest hd hlen => ?decoded, fun lits s => ⟨fun hin hout => ?copies, fun hin => ?underrun,
    fun hin hout => ?overflow⟩⟩
  case decoded =>
    refine (decode_eq_decodeLit hd (tagLen_tagByte 0 x) _).trans ?_
    exact decodeLit_eq_instr_iff.2 ⟨lits, (tagLow_tagByte 0 x).symm ▸ hlen, rfl, rfl⟩
  case copies => exact ⟨_, rfl, literalRun_done hin hout⟩
  case underrun =>
    rcases literalRun_cases lits s with ⟨-, e⟩ | ⟨hle, -, -⟩ | ⟨hle, -, -⟩
    · exact congrArg Host.Outcome.next e
    · omega
    · omega
  case overflow =>
    rcases literalRun_cases lits s with ⟨hlt, -⟩ | ⟨-, -, e⟩ | ⟨-, hfit, -⟩
    · omega
    · exact congrArg Host.Outcome.next e
    · omega

end Sys2Proof.Proofs
end

section
/-! SUPPORT. Match opcodes: the whole rule of a match from the copy it stands for (spec/43_match_l1.md R140, R213), and
which level-1 instruction has a given length and distance (spec/30_encoding.md R64). -/

namespace Sys2Proof.Machine

open Sys2Proof.Claim

/-! ### A match that completes (R140) -/

/-- What an opcode that completes writes, it writes between the old and the new `OP`. -/
theorem OutWrite.outsideUnchanged {s : State} {m : Memory} {len : Nat} (hm : OutWrite s m len) (n : Nat) :
    outsideUnchanged len s (advance n len (putOut m len s)) := by
  intro a ha
  rw [outByte_advance_putOut]
  split
  · rfl
  · simp only [outByte, outMemByte, hm.outside a ha]

theorem matchCopy_done {n len dist : Nat} (hn : 0 < n) (hd : 1 ≤ dist) {s : State}
    (hin : s.ip.toNat + 1 + n ≤ s.inLen.toNat) (hout : s.op.toNat + len ≤ s.outCap.toNat) (href : dist ≤ s.op.toNat) :
    matchDone n len dist s (matchCopy n len dist s) := by
  rcases matchCopy_cases hn len dist s with ⟨h, -⟩ | ⟨-, h, -⟩ | ⟨-, -, h, -⟩ | ⟨-, -, -, e⟩
  · omega
  · omega
  · omega
  rw [e]
  refine ⟨?ip, ?op, fun hmode i hi => ?inside, (outWrite_copyForward s len hd href).outsideUnchanged _,
    fun hmode => ?vonly, ?frame⟩
  case ip =>
    rw [advance_ip, putOut_ip, toWord_toNat (w := s.inLen) (by omega)]; omega
  case op =>
    rw [advance_op, putOut_op]
    exact toWord_toNat hout
  case inside =>
    rw [outByte_advance_putOut, hmode]
    exact copyForward_cyclic _ _ len hd href hi
  case vonly => simp [hmode]
  case frame => unfold onlyCursorsAndOut putOut; split <;> rfl

/-- An instruction that is a match copy in every state has the whole rule of a match. -/
theorem matchRule_of_exec {i : Instr} {n len dist : Nat} (hn : 0 < n) (hd : 1 ≤ dist)
    (hx : ∀ s, exec i s = .next (matchCopy n len dist s)) : matchRule i n len dist := by
  intro s
  rw [hx s]
  refine ⟨fun hin hout href => ⟨_, rfl, matchCopy_done hn hd hin hout href⟩, ?raises⟩
  rcases matchCopy_cases hn len dist s with ⟨h1, e⟩ | ⟨h1, h2, e⟩ | ⟨h1, h2, h3, e⟩ | ⟨h1, h2, h3, -⟩
  · exact ⟨fun _ => congrArg Host.Outcome.next e, fun _ _ => by omega, fun _ _ _ => by omega⟩
  · exact ⟨fun _ => by omega, fun _ _ => congrArg Host.Outcome.next e, fun _ _ _ => by omega⟩
  · exact ⟨fun _ => by omega, fun _ _ => by omega, fun _ _ _ => congrArg Host.Outcome.next e⟩
  · exact ⟨fun _ => by omega, fun _ _ => by omega, fun _ _ _ => by omega⟩

/-! ### The level-1 matches as copies (R141, R142) -/

theorem exec_m1s (l : BitVec 3) (hi : BitVec 5) (lo : Byte) (s : State) :
    exec (.m1s l hi lo) s = .next (matchCopy 1 (l.toNat + 2) (hi.toNat * 256 + lo.toNat + 1) s) := by
  rw [← nearDist_eq]; rfl

theorem exec_m1l (hi : BitVec 5) (ext lo : Byte) (s : State) :
    exec (.m1l hi ext lo) s = .next (matchCopy 2 (ext.toNat + 9) (hi.toNat * 256 + lo.toNat + 1) s) := by
  rw [← nearDist_eq, ← longLen1_eq]; rfl

/-! ### The fields of a length and of a near distance (R64) -/

theorem shortLength_iff {len : Nat} (h3 : 3 ≤ len) (h8 : len ≤ 8) (l : BitVec 3) :
    l.toNat + 2 = len ↔ l = asmShortField len := by
  rw [asmShortField, ← BitVec.toNat_inj, BitVec.toNat_ofNat]; omega

theorem longLength_iff {len : Nat} (h9 : 9 ≤ len) (h264 : len ≤ 264) (ext : Byte) :
    ext.toNat + 9 = len ↔ ext = BitVec.ofNat 8 (len - 9) := by
  rw [← BitVec.toNat_inj, BitVec.toNat_ofNat]; omega

theorem nearDistance_iff {dist : Nat} (h1 : 1 ≤ dist) (h8192 : dist ≤ 8192) (hi : BitVec 5) (lo : Byte) :
    hi.toNat * 256 + lo.toNat + 1 = dist ↔ hi = asmHi dist ∧ lo = asmLo dist := by
  rw [asmHi, asmLo, ← BitVec.toNat_inj, ← BitVec.toNat_inj, BitVec.toNat_ofNat, BitVec.toNat_ofNat,
    Nat.shiftRight_eq_div_pow]
  omega

theorem shortFieldOk_iff_length (l : BitVec 3) : shortFieldOk l = true ↔ 3 ≤ l.toNat + 2 ∧ l.toNat + 2 ≤ 8 := by
  revert l; decide

/-! ### The level-1 spelling of a length and distance (R143) -/

/-- `i` is a well-formed level-1 match of this length and distance. -/
def SpellsMatch1 (len dist : Nat) (i : Instr) : Prop :=
  i.wf = true ∧ i.fits .level1 = true ∧ lengthAndDistance i = some (len, dist)

section
variable {len dist : Nat}

/-- `M1S` and `M1L` are the only level-1 matches, the first for lengths 3 to 8, the second from 9 up. -/
theorem spellsMatch1_iff {i : Instr} : SpellsMatch1 len dist i ↔
    (∃ l hi lo, i = .m1s l hi lo ∧ 3 ≤ len ∧ len ≤ 8 ∧ l.toNat + 2 = len ∧ hi.toNat * 256 + lo.toNat + 1 = dist) ∨
    (∃ hi ext lo, i = .m1l hi ext lo ∧ ext.toNat + 9 = len ∧ hi.toNat * 256 + lo.toNat + 1 = dist) := by
  constructor
  · rintro ⟨hw, hf, hld⟩
    cases i with
    | m1s l hi lo =>
      cases hld
      obtain ⟨h3, h8⟩ := (shortFieldOk_iff_length l).1 hw
      exact .inl ⟨l, hi, lo, rfl, h3, h8, rfl, rfl⟩
    | m1l hi ext lo => cases hld; exact .inr ⟨hi, ext, lo, rfl, rfl, rfl⟩
    | hdr m lits => cases hld
    | lit lits => cases hld
    | m2ns l hi lo => cases hf
    | m2nl hi k c lo => cases hf
    | m2fs l exhi exlo => cases hf
    | m2fl k c exhi exlo => cases hf
    | adlLoad v => cases hf
    | adlPush b => cases hf
    | adlRead => cases hf
    | decStart => cases hf
  · rintro (⟨l, hi, lo, rfl, h3, h8, rfl, rfl⟩ | ⟨hi, ext, lo, rfl, rfl, rfl⟩)
    · exact ⟨(shortFieldOk_iff_length l).2 ⟨h3, h8⟩, rfl, rfl⟩
    · exact ⟨rfl, rfl, rfl⟩

theorem spellsMatch1_short_iff (h3 : 3 ≤ len) (h8 : len ≤ 8) (h1 : 1 ≤ dist) (h8192 : dist ≤ 8192) (i : Instr) :
    SpellsMatch1 len dist i ↔ i = .m1s (asmShortField len) (asmHi dist) (asmLo dist) := by
  rw [spellsMatch1_iff]
  simp only [shortLength_iff h3 h8, nearDistance_iff h1 h8192]
  constructor
  · rintro (⟨l, hi, lo, rfl, -, -, rfl, rfl, rfl⟩ | ⟨hi, ext, lo, -, hlen, -⟩)
    · rfl
    · omega
  · exact fun e => .inl ⟨_, _, _, e, h3, h8, rfl, rfl, rfl⟩

theorem spellsMatch1_long_iff (h9 : 9 ≤ len) (h264 : len ≤ 264) (h1 : 1 ≤ dist) (h8192 : dist ≤ 8192) (i : Instr) :
    SpellsMatch1 len dist i ↔ i = .m1l (asmHi dist) (BitVec.ofNat 8 (len - 9)) (asmLo dist) := by
  rw [spellsMatch1_iff]
  simp only [longLength_iff h9 h264, nearDistance_iff h1 h8192]
  constructor
  · rintro (⟨l, hi, lo, -, -, h8, -⟩ | ⟨hi, ext, lo, rfl, rfl, rfl, rfl⟩)
    · omega
    · rfl
  · exact fun e => .inr ⟨_, _, _, e, rfl, rfl, rfl⟩

end

end Sys2Proof.Machine
end

section
/-! PROOFS. The statements of spec/43_match_l1.md: the level-1 matches. -/

namespace Sys2Proof.Proofs

open Sys2Proof.Machine

/-- Settles O14: the tag gives back its fields, and `M1S` is the match copy of one operand byte. -/
theorem m1sCopiesOrRaises : Obligations.M1sCopiesOrRaises :=
  ⟨fun _ hi lo rest h0 h7 => decode_m1s h0 h7 hi lo rest,
    fun l hi lo => matchRule_of_exec (by omega) (by omega) (exec_m1s l hi lo)⟩

/-- Settles O15: the tag gives back its fields, and `M1L` is the match copy of two operand bytes. -/
theorem m1lCopiesOrRaises : Obligations.M1lCopiesOrRaises :=
  ⟨decode_m1l, fun hi ext lo => matchRule_of_exec (by omega) (by omega) (exec_m1l hi ext lo)⟩

/-- Settles O46: up to length 8 the spelling is an `M1S`, from 9 up an `M1L`, and its fields are those the assembler
computes. -/
theorem everyLevelOneMatchHasOneSpelling : Obligations.EveryLevelOneMatchHasOneSpelling := by
  intro len dist h3 h264 h1 h8192
  obtain ⟨i, hi⟩ : ∃ i, ∀ j, SpellsMatch1 len dist j ↔ j = i := by
    rcases Nat.lt_or_ge 8 len with h9 | h8
    · exact ⟨_, spellsMatch1_long_iff h9 h264 h1 h8192⟩
    · exact ⟨_, spellsMatch1_short_iff h3 h8 h1 h8192⟩
  exact ⟨i, (hi i).2 rfl, fun j hw hf hld => (hi j).1 ⟨hw, hf, hld⟩⟩

end Sys2Proof.Proofs
end

section
/-! SUPPORT. The level-2 match opcodes as copies (spec/44_match_l2.md R155 to R158), and which level-2 instruction has a
given length and distance (R159d, spec/30_encoding.md R64). -/

namespace Sys2Proof.Machine

open Sys2Proof.Claim

/-! ### The level-2 matches as copies (R155 to R158) -/

theorem exec_m2ns (l : BitVec 3) (hi : BitVec 5) (lo : Byte) (s : State) :
    exec (.m2ns l hi lo) s = .next (matchCopy 1 (l.toNat + 2) (hi.toNat * 256 + lo.toNat + 1) s) := by
  rw [← nearDist_eq]; rfl

theorem exec_m2nl (hi : BitVec 5) (k : Nat) (c lo : Byte) (s : State) :
    exec (.m2nl hi k c lo) s =
      .next (matchCopy (k + 2) (255 * k + c.toNat + 9) (hi.toNat * 256 + lo.toNat + 1) s) := by
  rw [← nearDist_eq, ← longLen2_eq]; rfl

theorem exec_m2fs (l : BitVec 3) (exhi exlo : Byte) (s : State) :
    exec (.m2fs l exhi exlo) s = .next (matchCopy 3 (l.toNat + 2) (exhi.toNat * 256 + exlo.toNat + 8192) s) := by
  rw [← farDist_eq]; rfl

theorem exec_m2fl (k : Nat) (c exhi exlo : Byte) (s : State) :
    exec (.m2fl k c exhi exlo) s =
      .next (matchCopy (k + 4) (255 * k + c.toNat + 9) (exhi.toNat * 256 + exlo.toNat + 8192) s) := by
  rw [← farDist_eq, ← longLen2_eq]; rfl

/-! ### The fields of a level-2 length and distance (R64)

Each form of the length and of the distance has its own range, and within it the legal fields of a value are unique. -/

theorem shortLength2_iff {len : Nat} (h3 : 3 ≤ len) (l : BitVec 3) :
    shortFieldOk l = true ∧ l.toNat + 2 = len ↔ len ≤ 8 ∧ l = asmShortField len := by
  constructor
  · rintro ⟨hl, e⟩
    have h8 : len ≤ 8 := e ▸ ((shortFieldOk_iff_length l).1 hl).2
    exact ⟨h8, (shortLength_iff h3 h8 l).1 e⟩
  · rintro ⟨h8, e⟩
    have hlen := (shortLength_iff h3 h8 l).2 e
    exact ⟨(shortFieldOk_iff_length l).2 (by omega), hlen⟩

/-- `k` and `c` are quotient and remainder by 255, for `c` is not 255 (R152). -/
theorem longLength2_iff (len k : Nat) (c : Byte) :
    c ≠ 255 ∧ 255 * k + c.toNat + 9 = len ↔
      9 ≤ len ∧ k = (len - 9) / 255 ∧ c = BitVec.ofNat 8 ((len - 9) % 255) := by
  rw [Ne, ← BitVec.toNat_inj, ← BitVec.toNat_inj, BitVec.toNat_ofNat, show (255 : Byte).toNat = 255 from rfl]
  omega

/-- The far marker pair is the spelling that the near distance 8192 would have. -/
theorem farMark_iff_distance (hi : BitVec 5) (lo : Byte) :
    hi = 31 ∧ lo = 255 ↔ hi.toNat * 256 + lo.toNat + 1 = 8192 :=
  (nearDistance_iff (dist := 8192) (by omega) (by omega) hi lo).symm

theorem nearDistance2_iff {dist : Nat} (h1 : 1 ≤ dist) (hi : BitVec 5) (lo : Byte) :
    ¬ (hi = 31 ∧ lo = 255) ∧ hi.toNat * 256 + lo.toNat + 1 = dist ↔
      dist ≤ 8191 ∧ hi = asmHi dist ∧ lo = asmLo dist := by
  rw [farMark_iff_distance]
  constructor
  · rintro ⟨hmark, e⟩
    have hd : dist ≤ 8191 := by omega
    exact ⟨hd, (nearDistance_iff h1 (by omega) hi lo).1 e⟩
  · rintro ⟨hd, e⟩
    have hdist := (nearDistance_iff h1 (by omega) hi lo).2 e
    exact ⟨by omega, hdist⟩

theorem farDistance_iff {dist : Nat} (h : dist ≤ 73727) (exhi exlo : Byte) :
    exhi.toNat * 256 + exlo.toNat + 8192 = dist ↔ 8192 ≤ dist ∧ exhi = asmExHi dist ∧ exlo = asmExLo dist := by
  rw [asmExHi, asmExLo, ← BitVec.toNat_inj, ← BitVec.toNat_inj, BitVec.toNat_ofNat, BitVec.toNat_ofNat,
    Nat.shiftRight_eq_div_pow]
  omega

/-! ### The level-2 spelling of a length and distance (R159d) -/

/-- `i` is a well-formed level-2 match of this length and distance. -/
def SpellsMatch2 (len dist : Nat) (i : Instr) : Prop :=
  i.wf = true ∧ i.fits .level2 = true ∧ lengthAndDistance i = some (len, dist)

/-- The level-2 match of a length and distance: short up to 8, near up to 8191, its fields as the assembler computes
them (R190). -/
def levelTwoSpelling (len dist : Nat) : Instr :=
  if dist ≤ 8191 then
    if len ≤ 8 then .m2ns (asmShortField len) (asmHi dist) (asmLo dist)
    else .m2nl (asmHi dist) ((len - 9) / 255) (BitVec.ofNat 8 ((len - 9) % 255)) (asmLo dist)
  else
    if len ≤ 8 then .m2fs (asmShortField len) (asmExHi dist) (asmExLo dist)
    else .m2fl ((len - 9) / 255) (BitVec.ofNat 8 ((len - 9) % 255)) (asmExHi dist) (asmExLo dist)

section
variable {len dist : Nat}

theorem spellsMatch2_iff_of_fields {i : Instr} {n d : Nat} (hf : i.fits .level2 = true)
    (hld : lengthAndDistance i = some (n, d)) :
    SpellsMatch2 len dist i ↔ i.wf = true ∧ n = len ∧ d = dist := by
  rw [SpellsMatch2, hld, Option.some_inj, Prod.mk.injEq, and_iff_right hf]

theorem spellsMatch2_m2ns_iff (h3 : 3 ≤ len) (h1 : 1 ≤ dist) (l : BitVec 3) (hi : BitVec 5) (lo : Byte) :
    SpellsMatch2 len dist (.m2ns l hi lo) ↔
      (len ≤ 8 ∧ l = asmShortField len) ∧ (dist ≤ 8191 ∧ hi = asmHi dist ∧ lo = asmLo dist) := by
  rw [← shortLength2_iff h3, ← nearDistance2_iff h1, spellsMatch2_iff_of_fields rfl rfl, m2ns_wf_iff,
    shortFieldOk_iff]
  exact and_and_and_comm

theorem spellsMatch2_m2nl_iff (h1 : 1 ≤ dist) (hi : BitVec 5) (k : Nat) (c lo : Byte) :
    SpellsMatch2 len dist (.m2nl hi k c lo) ↔
      (9 ≤ len ∧ k = (len - 9) / 255 ∧ c = BitVec.ofNat 8 ((len - 9) % 255)) ∧
      (dist ≤ 8191 ∧ hi = asmHi dist ∧ lo = asmLo dist) := by
  rw [← longLength2_iff, ← nearDistance2_iff h1, spellsMatch2_iff_of_fields rfl rfl, m2nl_wf_iff]
  exact and_and_and_comm

theorem spellsMatch2_m2fs_iff (h3 : 3 ≤ len) (hd : dist ≤ 73727) (l : BitVec 3) (exhi exlo : Byte) :
    SpellsMatch2 len dist (.m2fs l exhi exlo) ↔
      (len ≤ 8 ∧ l = asmShortField len) ∧ (8192 ≤ dist ∧ exhi = asmExHi dist ∧ exlo = asmExLo dist) := by
  rw [← shortLength2_iff h3, ← farDistance_iff hd, spellsMatch2_iff_of_fields rfl rfl]
  exact and_assoc.symm

theorem spellsMatch2_m2fl_iff (hd : dist ≤ 73727) (k : Nat) (c exhi exlo : Byte) :
    SpellsMatch2 len dist (.m2fl k c exhi exlo) ↔
      (9 ≤ len ∧ k = (len - 9) / 255 ∧ c = BitVec.ofNat 8 ((len - 9) % 255)) ∧
      (8192 ≤ dist ∧ exhi = asmExHi dist ∧ exlo = asmExLo dist) := by
  rw [← longLength2_iff, ← farDistance_iff hd, spellsMatch2_iff_of_fields rfl rfl, m2fl_wf_iff]
  exact and_assoc.symm

theorem spellsMatch2_iff (h3 : 3 ≤ len) (h1 : 1 ≤ dist) (hd : dist ≤ 73727) (i : Instr) :
    SpellsMatch2 len dist i ↔ i = levelTwoSpelling len dist := by
  constructor
  · intro h
    have ⟨_, hfits, hld⟩ := h
    cases i with
    | m2ns l hi lo =>
      obtain ⟨⟨hl, rfl⟩, hn, rfl, rfl⟩ := (spellsMatch2_m2ns_iff h3 h1 l hi lo).1 h
      rw [levelTwoSpelling, if_pos hn, if_pos hl]
    | m2nl hi k c lo =>
      obtain ⟨⟨hl, rfl, rfl⟩, hn, rfl, rfl⟩ := (spellsMatch2_m2nl_iff h1 hi k c lo).1 h
      rw [levelTwoSpelling, if_pos hn, if_neg (by omega)]
    | m2fs l exhi exlo =>
      obtain ⟨⟨hl, rfl⟩, hf, rfl, rfl⟩ := (spellsMatch2_m2fs_iff h3 hd l exhi exlo).1 h
      rw [levelTwoSpelling, if_neg (by omega), if_pos hl]
    | m2fl k c exhi exlo =>
      obtain ⟨⟨hl, rfl, rfl⟩, hf, rfl, rfl⟩ := (spellsMatch2_m2fl_iff hd k c exhi exlo).1 h
      rw [levelTwoSpelling, if_neg (by omega), if_neg (by omega)]
    | hdr m lits => cases hld
    | lit lits => cases hld
    | m1s l hi lo => cases hfits
    | m1l hi ext lo => cases hfits
    | adlLoad v => cases hld
    | adlPush b => cases hld
    | adlRead => cases hld
    | decStart => cases hld
  · rintro rfl
    unfold levelTwoSpelling
    split
    next hn =>
      split
      next hl => exact (spellsMatch2_m2ns_iff h3 h1 ..).2 ⟨⟨hl, rfl⟩, hn, rfl, rfl⟩
      next hl => exact (spellsMatch2_m2nl_iff h1 ..).2 ⟨⟨by omega, rfl, rfl⟩, hn, rfl, rfl⟩
    next hf =>
      split
      next hl => exact (spellsMatch2_m2fs_iff h3 hd ..).2 ⟨⟨hl, rfl⟩, by omega, rfl, rfl⟩
      next hl => exact (spellsMatch2_m2fl_iff hd ..).2 ⟨⟨by omega, rfl, rfl⟩, by omega, rfl, rfl⟩

end

end Sys2Proof.Machine
end

section
/-! PROOFS. The statements of spec/44_match_l2.md: the level-2 matches. -/

namespace Sys2Proof.Proofs

open Sys2Proof.Machine

/-- Settles O16: the bytes are the encoding of a well-formed `M2NS`, which is the match copy of one operand byte. -/
theorem m2nsCopiesOrRaises : Obligations.M2nsCopiesOrRaises :=
  ⟨fun l hi lo rest h0 h7 hmark =>
      decodeOfEncodeIsTheInstruction .level2 (.m2ns l hi lo) rest
        ((m2ns_wf_iff l hi lo).2 ⟨⟨h0, h7⟩, hmark⟩) rfl,
    fun l hi lo => matchRule_of_exec (by omega) (by omega) (exec_m2ns l hi lo)⟩

/-- Settles O17: the bytes are the encoding of a well-formed `M2NL`, which is the match copy of `k + 2` operand
bytes. -/
theorem m2nlCopiesOrRaises : Obligations.M2nlCopiesOrRaises :=
  ⟨fun hi k c lo rest hc hmark =>
      encode_m2nl_append hi k c lo rest ▸
        decodeOfEncodeIsTheInstruction .level2 (.m2nl hi k c lo) rest ((m2nl_wf_iff hi k c lo).2 ⟨hc, hmark⟩) rfl,
    fun hi k c lo => matchRule_of_exec (by omega) (by omega) (exec_m2nl hi k c lo)⟩

/-- Settles O18: the bytes are the encoding of a well-formed `M2FS`, which is the match copy of three operand bytes. -/
theorem m2fsCopiesOrRaises : Obligations.M2fsCopiesOrRaises :=
  ⟨fun l exhi exlo rest h0 h7 =>
      decodeOfEncodeIsTheInstruction .level2 (.m2fs l exhi exlo) rest ((shortFieldOk_iff l).2 ⟨h0, h7⟩) rfl,
    fun l exhi exlo => matchRule_of_exec (by omega) (by omega) (exec_m2fs l exhi exlo)⟩

/-- Settles O19: the bytes are the encoding of a well-formed `M2FL`, which is the match copy of `k + 4` operand
bytes. -/
theorem m2flCopiesOrRaises : Obligations.M2flCopiesOrRaises :=
  ⟨fun k c exhi exlo rest hc =>
      encode_m2fl_append k c exhi exlo rest ▸
        decodeOfEncodeIsTheInstruction .level2 (.m2fl k c exhi exlo) rest ((m2fl_wf_iff k c exhi exlo).2 hc) rfl,
    fun k c exhi exlo => matchRule_of_exec (by omega) (by omega) (exec_m2fl k c exhi exlo)⟩

/-- Settles O45: the one spelling is the short or long, near or far form in whose ranges the length and the distance
lie, with the fields the assembler computes. -/
theorem everyLevelTwoMatchHasOneSpelling : Obligations.EveryLevelTwoMatchHasOneSpelling := by
  intro len dist h3 h1 hd
  have spells := spellsMatch2_iff h3 h1 hd
  exact ⟨levelTwoSpelling len dist, (spells _).2 rfl, fun j hw hf hld => (spells j).1 ⟨hw, hf, hld⟩⟩

end Sys2Proof.Proofs
end

section
/-! SUPPORT. A run in validate-only mode against the same run in normal mode (spec/45_validator.md R180): every
operation of DEC does the same to the state whose `MODE` is set and whose `OUT` stays as it is. -/

namespace Sys2Proof.Machine

/-- `s` as a validate-only run has it: the mode set, the content of `OUT` and its extent given. -/
def asVonly (m : Memory) (extent : Nat) (s : State) : State :=
  { s with mode := true, outBuf := m, outExtent := extent }

/-- What both branches do to the changed state, the whole does. -/
theorem ite_eq_apply {f : State → State} {c : Prop} [Decidable c] {a b a' b' : State} (ha : a' = f a)
    (hb : b' = f b) : (if c then a' else b') = f (if c then a else b) := by
  split
  · exact ha
  · exact hb

section
variable (m : Memory) (extent : Nat)

/-- A validate-only run writes nothing, and what a normal run writes it does not see (R180). -/
theorem advance_putOut_asVonly (n len : Nat) (m₁ m₂ : Memory) (s : State) :
    advance n len (putOut m₁ len (asVonly m extent s)) = asVonly m extent (advance n len (putOut m₂ len s)) := by
  have hput : asVonly m extent (putOut m₂ len s) = asVonly m extent s := by unfold putOut; split <;> rfl
  exact congrArg (advance n len) hput.symm

theorem literalRun_asVonly (lits : List Byte) (s : State) :
    literalRun lits (asVonly m extent s) = asVonly m extent (literalRun lits s) :=
  ite_eq_apply rfl (ite_eq_apply rfl (advance_putOut_asVonly m extent _ _ _ _ s))

theorem matchCopy_asVonly (n len dist : Nat) (s : State) :
    matchCopy n len dist (asVonly m extent s) = asVonly m extent (matchCopy n len dist s) :=
  ite_eq_apply rfl (ite_eq_apply rfl (ite_eq_apply rfl (advance_putOut_asVonly m extent _ _ _ _ s)))

/-- No instruction in `BUSY` looks at the mode but to leave `OUT` as it is. -/
theorem exec_asVonly {s : State} (hb : s.st = .busy) (i : Instr) :
    exec i (asVonly m extent s) = mapNext (asVonly m extent) (exec i s) := by
  cases i with
  | hdr marker lits =>
    exact congrArg Host.Outcome.next (ite_eq_apply rfl (literalRun_asVonly m extent lits (setLevel marker s)))
  | lit lits => exact congrArg _ (literalRun_asVonly m extent lits s)
  | m1s l hi lo => exact congrArg _ (matchCopy_asVonly m extent _ _ _ s)
  | m1l hi ext lo => exact congrArg _ (matchCopy_asVonly m extent _ _ _ s)
  | m2ns l hi lo => exact congrArg _ (matchCopy_asVonly m extent _ _ _ s)
  | m2nl hi k c lo => exact congrArg _ (matchCopy_asVonly m extent _ _ _ s)
  | m2fs l exhi exlo => exact congrArg _ (matchCopy_asVonly m extent _ _ _ s)
  | m2fl k c exhi exlo => exact congrArg _ (matchCopy_asVonly m extent _ _ _ s)
  | adlLoad v => rfl
  | adlPush b => rfl
  | adlRead => rfl
  | decStart =>
    have hkeep : exec .decStart s = .next s := execDecStart_of_busy hb
    rw [hkeep]
    exact execDecStart_of_busy (s := asVonly m extent s) hb

theorem stopRule_asVonly (s : State) : stopRule (asVonly m extent s) = asVonly m extent (stopRule s) :=
  ite_eq_apply rfl rfl

theorem fetchError_asVonly (r : DecodeReject) (s : State) :
    fetchError r (asVonly m extent s) = asVonly m extent (fetchError r s) := by
  cases r with
  | truncated marker => cases marker <;> rfl
  | _ => rfl

/-- A turn of DEC in validate-only mode is the same turn of the normal run, with `OUT` left as it is. -/
theorem decTurn_asVonly (s : State) :
    decTurn (asVonly m extent s) = mapNext (asVonly m extent) (decTurn s) := by
  rcases decTurn_cases s with ⟨hb, e⟩ | ⟨hb, i, rest, t, hd, hx, e⟩ | ⟨hb, r, hd, e⟩
  · rw [e]; exact decTurn_of_not_busy hb
  · rw [e, decTurn_of_instr (s := asVonly m extent s) hb hd, exec_asVonly m extent hb, hx]
    exact congrArg Host.Outcome.next (stopRule_asVonly m extent t)
  · rw [e, decTurn_of_reject (s := asVonly m extent s) hb hd]
    exact congrArg Host.Outcome.next (fetchError_asVonly m extent r s)

end

/-- `t` is `s` in validate-only mode, with no turn listed, and `OUT` in `t` has the content `m`. -/
def VonlyTwin (m : Memory) (s t : State) : Prop := s.inputs = [] ∧ ∃ extent, t = asVonly m extent s

theorem VonlyTwin.step {m : Memory} {s t s' t' : State} (h : VonlyTwin m s t) (hs : step s = .next s')
    (ht : step t = .next t') : VonlyTwin m s' t' := by
  obtain ⟨hin, extent, rfl⟩ := h
  have hturn : decTurn s = .next s' := (step_of_no_input hin).symm.trans hs
  have htwin : decTurn (asVonly m extent s) = .next (asVonly m extent s') := by
    rw [decTurn_asVonly, hturn]; rfl
  cases htwin.symm.trans ((step_of_no_input (s := asVonly m extent s) hin).symm.trans ht)
  exact ⟨(OnlyRunState.decTurn hturn).inputs.trans hin, extent, rfl⟩

end Sys2Proof.Machine
end

section
/-! SUPPORT. The same run at another capacity (spec/45_validator.md R184): an opcode that completes does the same at
every capacity its output fits, so a run that ends well does the same at every capacity its whole output fits. -/

namespace Sys2Proof.Machine

open Sys2Proof.Claim

/-- `s` with another `OUT_CAP`. -/
def withCap (c : Word) (s : State) : State := { s with outCap := c }

section
variable {c : Word} {s t : State}

/-! ### Opcodes -/

theorem putOut_withCap (c : Word) (m : Memory) (len : Nat) (s : State) :
    putOut m len (withCap c s) = withCap c (putOut m len s) := ite_eq_apply rfl rfl

theorem literalRun_withCap {lits : List Byte} (hok : (literalRun lits s).st ≠ .error)
    (hfit : (literalRun lits s).op.toNat ≤ c.toNat) :
    literalRun lits (withCap c s) = withCap c (literalRun lits s) := by
  rcases literalRun_cases lits s with ⟨-, e⟩ | ⟨-, -, e⟩ | ⟨hin, hout, e⟩
  · rw [e] at hok; exact absurd rfl hok
  · rw [e] at hok; exact absurd rfl hok
  rw [e, advance_op, putOut_op, toWord_toNat hout] at hfit
  rcases literalRun_cases lits (withCap c s) with ⟨h, -⟩ | ⟨-, h, -⟩ | ⟨-, -, e'⟩
  · exact absurd hin (Nat.not_le.2 h)
  · exact absurd hfit (Nat.not_le.2 h)
  · rw [e, e', putOut_withCap]; rfl

theorem matchCopy_withCap {n : Nat} (hn : 0 < n) {len dist : Nat} (hok : (matchCopy n len dist s).st ≠ .error)
    (hfit : (matchCopy n len dist s).op.toNat ≤ c.toNat) :
    matchCopy n len dist (withCap c s) = withCap c (matchCopy n len dist s) := by
  rcases matchCopy_cases hn len dist s with ⟨-, e⟩ | ⟨-, -, e⟩ | ⟨-, -, -, e⟩ | ⟨hin, hout, href, e⟩
  · rw [e] at hok; exact absurd rfl hok
  · rw [e] at hok; exact absurd rfl hok
  · rw [e] at hok; exact absurd rfl hok
  rw [e, advance_op, putOut_op, toWord_toNat hout] at hfit
  rcases matchCopy_cases hn len dist (withCap c s) with ⟨h, -⟩ | ⟨-, h, -⟩ | ⟨-, -, h, -⟩ | ⟨-, -, -, e'⟩
  · exact absurd hin (Nat.not_le.2 h)
  · exact absurd hfit (Nat.not_le.2 h)
  · exact absurd href (Nat.not_le.2 h)
  · rw [e, e', putOut_withCap]; rfl

/-- An instruction in `BUSY` that does not raise does the same at every capacity that its `OP` fits. -/
theorem exec_withCap (hb : s.st = .busy) {i : Instr} (hx : exec i s = .next t) (hok : t.st ≠ .error)
    (hfit : t.op.toNat ≤ c.toNat) : exec i (withCap c s) = .next (withCap c t) := by
  cases i with
  | hdr m lits =>
    cases hx
    by_cases hm : 2 ≤ m.toNat
    · rw [if_pos hm] at hok; exact absurd rfl hok
    · rw [if_neg hm] at hok hfit ⊢
      rw [← literalRun_withCap hok hfit]
      exact congrArg Host.Outcome.next (if_neg hm)
  | lit lits => cases hx; exact congrArg _ (literalRun_withCap hok hfit)
  | m1s l hi lo => cases hx; exact congrArg _ (matchCopy_withCap (by omega) hok hfit)
  | m1l hi ext lo => cases hx; exact congrArg _ (matchCopy_withCap (by omega) hok hfit)
  | m2ns l hi lo => cases hx; exact congrArg _ (matchCopy_withCap (by omega) hok hfit)
  | m2nl hi k c lo => cases hx; exact congrArg _ (matchCopy_withCap (by omega) hok hfit)
  | m2fs l exhi exlo => cases hx; exact congrArg _ (matchCopy_withCap (by omega) hok hfit)
  | m2fl k c exhi exlo => cases hx; exact congrArg _ (matchCopy_withCap (by omega) hok hfit)
  | adlLoad v => cases hx; rfl
  | adlPush b => cases hx; rfl
  | adlRead => cases hx; rfl
  | decStart =>
    cases (execDecStart_of_busy hb).symm.trans hx
    exact execDecStart_of_busy (s := withCap c s) hb

/-! ### The step -/

theorem stopRule_withCap (c : Word) (s : State) : stopRule (withCap c s) = withCap c (stopRule s) :=
  ite_eq_apply rfl rfl

@[simp] theorem stopRule_op (s : State) : (stopRule s).op = s.op := by
  unfold stopRule; split <;> rfl

/-- The stop rule is for a run that did not raise (R116). -/
theorem stopRule_of_error (h : s.st = .error) : stopRule s = s :=
  if_neg fun hc => absurd (h.symm.trans hc.1) (by decide)

theorem decTurn_withCap (h : decTurn s = .next t) (hok : t.st ≠ .error) (hfit : t.op.toNat ≤ c.toNat) :
    decTurn (withCap c s) = .next (withCap c t) := by
  rcases decTurn_cases s with ⟨hb, e⟩ | ⟨hb, i, rest, u, hd, hx, e⟩ | ⟨-, r, -, e⟩
  · cases e.symm.trans h
    exact decTurn_of_not_busy hb
  · cases e.symm.trans h
    have hu : u.st ≠ .error := fun he => hok ((congrArg State.st (stopRule_of_error he)).trans he)
    rw [stopRule_op] at hfit
    rw [decTurn_of_instr (s := withCap c s) hb hd, exec_withCap hb hx hu hfit]
    exact congrArg Host.Outcome.next (stopRule_withCap c u)
  · cases e.symm.trans h
    exact absurd (fetchError_st r s) hok

/-! ### A run that ends well (R117, R120) -/

variable {k n : Nat} {out : List Byte}

theorem runSteps_succ (h : step s = .next t) (k : Nat) :
    runSteps (k + 1) s = if t.st = .busy then runSteps k t else resultOf t := by
  rw [runSteps, h]

theorem resultOf_eq_done (h : resultOf s = .done n out) : s.st = .done ∧ s.outLen.toNat = n := by
  unfold resultOf at h
  split at h
  next hd => cases h; exact ⟨hd, rfl⟩
  all_goals cases h

theorem OnlyRunState.outCap (h : OnlyRunState s t) : t.outCap = s.outCap := (congrArg State.outCap h :)

/-- The first step of a run that ends well: it does not raise, and it either leaves the rest of the run or is the last,
which takes the length from `OP`. -/
theorem runSteps_succ_done (hmoves : decMoves s) (h : runSteps (k + 1) s = .done n out) :
    ∃ t, decTurn s = .next t ∧ t.st ≠ .error ∧
      ((decMoves t ∧ runSteps k t = .done n out) ∨ (t.st = .done ∧ t.op.toNat = n ∧ resultOf t = .done n out)) := by
  obtain ⟨hin, hb⟩ := hmoves
  obtain ⟨t, hstep⟩ := step_answers s
  have hturn : decTurn s = .next t := (step_of_no_input hin).symm.trans hstep
  rw [runSteps_succ hstep] at h
  split at h
  next ht => exact ⟨t, hturn, by rw [ht]; decide, .inl ⟨⟨(OnlyRunState.decTurn hturn).inputs.trans hin, ht⟩, h⟩⟩
  next =>
    obtain ⟨hd, hn⟩ := resultOf_eq_done h
    rw [decTurn_outLen_of_done hb hturn hd] at hn
    exact ⟨t, hturn, by rw [hd]; decide, .inr ⟨hd, hn, h⟩⟩

/-- The decoded length is reached from below and lies in the capacity. -/
theorem runSteps_done_bounds (hmoves : decMoves s) (h : runSteps k s = .done n out) :
    s.op.toNat ≤ n ∧ n ≤ s.outCap.toNat := by
  induction k generalizing s with
  | zero => cases h
  | succ k ih =>
    obtain ⟨t, hturn, hok, hrest⟩ := runSteps_succ_done hmoves h
    have hmoved := decTurn_movesForward hmoves.2 hturn hok
    have hlt := hmoved.op_lt
    rcases hrest with ⟨ht, hrun⟩ | ⟨-, hn, -⟩
    · obtain ⟨hop, hcap⟩ := ih ht hrun
      rw [(OnlyRunState.decTurn hturn).outCap] at hcap
      exact ⟨by omega, hcap⟩
    · exact ⟨by omega, hn ▸ hmoved.op_le⟩

/-- A run that ends well ends the same at every capacity its output fits. -/
theorem runSteps_withCap (hmoves : decMoves s) (h : runSteps k s = .done n out) (hfit : n ≤ c.toNat) :
    runSteps k (withCap c s) = .done n out := by
  induction k generalizing s with
  | zero => cases h
  | succ k ih =>
    obtain ⟨t, hturn, hok, hrest⟩ := runSteps_succ_done hmoves h
    have hop : t.op.toNat ≤ n := by
      rcases hrest with ⟨ht, hrun⟩ | ⟨-, hn, -⟩
      · exact (runSteps_done_bounds ht hrun).1
      · exact hn.le
    have hstep : step (withCap c s) = .next (withCap c t) :=
      (step_of_no_input (s := withCap c s) hmoves.1).trans (decTurn_withCap hturn hok (hop.trans hfit))
    rw [runSteps_succ hstep]
    rcases hrest with ⟨ht, hrun⟩ | ⟨hd, -, hres⟩
    · exact (if_pos ht.2).trans (ih ht hrun)
    · exact (if_neg (show t.st ≠ .busy by rw [hd]; decide)).trans hres

/-! ### Decoding a stream (R120) -/

variable {bs : List Byte} {cap cap' : Word} {vonly : Bool}

theorem decMoves_loadedState (bs : List Byte) (cap : Word) (vonly : Bool) : decMoves (loadedState bs cap vonly) :=
  ⟨rfl, rfl⟩

theorem decodeStream_of_ne_nil (h : bs ≠ []) (cap : Word) (vonly : Bool) :
    decodeStream bs cap vonly = runSteps bs.length (loadedState bs cap vonly) := if_neg h

theorem decodeStream_done_le (h : decodeStream bs cap vonly = .done n out) : n ≤ cap.toNat := by
  by_cases hbs : bs = []
  · subst hbs; cases h; exact Nat.zero_le _
  · rw [decodeStream_of_ne_nil hbs] at h
    exact (runSteps_done_bounds (decMoves_loadedState bs cap vonly) h).2

theorem decodeStream_done_of_le (h : decodeStream bs cap vonly = .done n out) (hfit : n ≤ cap'.toNat) :
    decodeStream bs cap' vonly = .done n out := by
  by_cases hbs : bs = []
  · subst hbs; exact h
  · rw [decodeStream_of_ne_nil hbs] at h ⊢
    exact runSteps_withCap (decMoves_loadedState bs cap vonly) h hfit

end

end Sys2Proof.Machine
end

section
/-! SUPPORT. Streams that end inside an opcode (spec/45_validator.md R171, R172): what the bytes of an opcode begin with
is no other opcode, and of bytes that are no opcode the decoder says, after the first opcode, only that they end too
early. -/

namespace Sys2Proof

/-- A proper beginning of an opcode's bytes does not decode: it would be the bytes of another opcode, which would then
decode from the whole (R66). -/
theorem not_decode_instr_of_cut {d : Dialect} {i i' : Instr} {bs missing rest : List Byte} (hw : i.wf = true)
    (hf : i.fits d = true) (hmissing : missing ≠ []) (hcut : bs ++ missing = encode i) :
    decode d bs ≠ .instr i' rest := by
  intro h
  obtain ⟨hw', hf', rfl⟩ := spells_of_decode h
  have hwhole := Proofs.decodeOfEncodeIsTheInstruction d i [] hw hf
  have hbegin := Proofs.decodeOfEncodeIsTheInstruction d i' (rest ++ missing) hw' hf'
  rw [List.append_nil, ← hcut, List.append_assoc, hbegin] at hwhole
  obtain ⟨-, hnil⟩ := Decoded.instr.inj hwhole
  exact hmissing (List.append_eq_nil_iff.1 hnil).2

theorem decodeLit_reject {t : Byte} {bs : List Byte} {r : DecodeReject} (h : decodeLit t bs = .reject r) :
    r = .truncated none := by
  unfold decodeLit at h
  split at h
  next => cases h
  next => cases h; rfl

theorem decodeMatch1_reject {t : Byte} {bs : List Byte} {r : DecodeReject} (h : decodeMatch1 t bs = .reject r) :
    r = .truncated none := by
  unfold decodeMatch1 at h
  split at h
  next =>
    split at h
    next => cases h
    next => cases h; rfl
  next =>
    split at h
    next => cases h
    next => cases h; rfl

theorem decodeNearFar_reject {x : BitVec 5} {near : Byte → Instr} {far : Byte → Byte → Instr} {bs : List Byte}
    {r : DecodeReject} (h : decodeNearFar x near far bs = .reject r) : r = .truncated none := by
  cases bs with
  | nil => cases h; rfl
  | cons lo bs =>
    simp only [decodeNearFar] at h
    split at h
    next => cases h
    next =>
      split at h
      next => cases h
      next => cases h; rfl

theorem decodeMatch2_reject {t : Byte} {bs : List Byte} {r : DecodeReject} (h : decodeMatch2 t bs = .reject r) :
    r = .truncated none := by
  by_cases h7 : tagLen t = 7
  · cases hl : lengthRun bs with
    | none => cases (decodeMatch2_cut h7 hl).symm.trans h; rfl
    | some p => exact decodeNearFar_reject ((decodeMatch2_long h7 hl).symm.trans h)
  · exact decodeNearFar_reject ((decodeMatch2_short h7 bs).symm.trans h)

/-- After the first opcode a tag is always legal (R67). -/
theorem decode_later_reject {d : Dialect} (hd : d ≠ .first) {bs : List Byte} (hbs : bs ≠ []) {r : DecodeReject}
    (h : decode d bs = .reject r) : r = .truncated none := by
  obtain ⟨t, bs, rfl⟩ := List.exists_cons_of_ne_nil hbs
  by_cases ht : tagLen t = 0
  · exact decodeLit_reject ((decode_eq_decodeLit hd ht bs).symm.trans h)
  · cases d with
    | first => exact absurd rfl hd
    | level1 => exact decodeMatch1_reject ((decode_level1_match ht bs).symm.trans h)
    | level2 => exact decodeMatch2_reject ((decode_level2_match ht bs).symm.trans h)

theorem decode_later_cut {d : Dialect} (hd : d ≠ .first) {i : Instr} {bs missing : List Byte} (hw : i.wf = true)
    (hf : i.fits d = true) (hbs : bs ≠ []) (hmissing : missing ≠ []) (hcut : bs ++ missing = encode i) :
    decode d bs = .reject (.truncated none) := by
  cases h : decode d bs with
  | instr i' rest => exact absurd h (not_decode_instr_of_cut hw hf hmissing hcut)
  | reject r => rw [decode_later_reject hd hbs h]

end Sys2Proof
end

section
/-! SUPPORT. The invariant of the machine (spec/45_validator.md R182, R183) part by part: what the buffers hold, what
holds while DEC runs, and that each agent's turn keeps it. -/

namespace Sys2Proof.Machine

/-- The part of the invariant that `STATE` has no part in: the buffers, and `VONLY` (R23, R19, R183). -/
structure State.Stored (p : Config.Params) (s : State) : Prop where
  inWf : s.inBuf.wf
  outWf : s.outBuf.wf
  inAddr : s.inBuf.below p.inMax
  outAddr : s.outBuf.below p.outMax
  vonlyHardwired : s.mode = true → p.hasVonly = true
  outWritten : ∀ a, a < s.outExtent → (s.outBuf.lookup a).isSome = true

/-- The part of the invariant of a running DEC that `FIRST` has no part in. It holds also between an opcode and its stop
rule (R112). -/
structure State.Running (p : Config.Params) (s : State) : Prop where
  busy : s.st = .busy
  stored : s.Stored p
  lengths : s.inLen.toNat ≤ p.inMax ∧ s.outCap.toNat ≤ p.outMax
  out : s.op.toNat ≤ s.outCap.toNat
  result : s.outLen = 0 ∧ s.errCode = .none ∧ s.errIp = 0 ∧ s.errOp = 0
  extent : s.mode = false → s.outExtent = s.op.toNat

variable {p : Config.Params} {s t u : State}

/-! ### The parts and the whole -/

theorem State.Inv.stored (h : s.Inv p) : s.Stored p := { h with }

theorem State.Inv.running (h : s.Inv p) (hb : s.st = .busy) : s.Running p :=
  ⟨hb, h.stored, h.busyLengths hb, h.busyOut hb, h.busyResult hb, h.busyExtent hb⟩

theorem State.Running.inv (h : s.Running p)
    (hfirst : s.first = true → s.ip = 0 ∧ s.op = 0 ∧ s.lv2 = false ∧ 1 ≤ s.inLen.toNat)
    (hlater : s.first = false → 1 ≤ s.op.toNat ∧ s.ip.toNat + 2 ≤ s.inLen.toNat) : s.Inv p :=
  { h.stored with
    busyLengths := fun _ => h.lengths
    busyOut := fun _ => h.out
    busyFirst := fun _ => hfirst
    busyLater := fun _ => hlater
    busyResult := fun _ => h.result
    doneResult := fun hd => nomatch h.busy.symm.trans hd
    errorResult := fun he => nomatch h.busy.symm.trans he
    idleResult := fun hi => nomatch h.busy.symm.trans hi
    busyExtent := fun _ => h.extent }

theorem State.Stored.inv_of_not_busy (h : s.Stored p) (hb : s.st ≠ .busy)
    (hdone : s.st = .done → s.outLen = s.op ∧ s.errCode = .none ∧ s.errIp = 0 ∧ s.errOp = 0)
    (herror : s.st = .error → s.outLen = 0 ∧ s.errCode ≠ .none ∧ s.errIp = s.ip ∧ s.errOp = s.op)
    (hidle : s.st = .idle →
      s.ip = 0 ∧ s.op = 0 ∧ s.outLen = 0 ∧ s.errCode = .none ∧ s.errIp = 0 ∧ s.errOp = 0) : s.Inv p :=
  { h with
    busyLengths := fun hc => absurd hc hb
    busyOut := fun hc => absurd hc hb
    busyFirst := fun hc => absurd hc hb
    busyLater := fun hc => absurd hc hb
    busyResult := fun hc => absurd hc hb
    doneResult := hdone
    errorResult := herror
    idleResult := hidle
    busyExtent := fun hc => absurd hc hb }

/-! ### RESET (R240) -/

theorem resetBlock_inv (p : Config.Params) (s : State) : (resetBlock s).Inv p :=
  { Proofs.resetMeetsTheInvariant p with }

/-! ### The host's turn (R21, R247) -/

theorem State.Stored.clearRun (h : s.Stored p) : (clearRun s).Stored p where
  inWf := h.inWf
  outWf := h.outWf
  inAddr := h.inAddr
  outAddr := h.outAddr
  vonlyHardwired := h.vonlyHardwired
  outWritten a ha := by
    rw [clearRun_outExtent] at ha
    split at ha
    · exact h.outWritten a ha
    · exact absurd ha (Nat.not_lt_zero a)

/-- A start checks the lengths before the run (R214), and clears every per-run register. -/
theorem State.Stored.startRun_inv (h : s.Stored p) : (startRun p s).Inv p := by
  rcases startRun_cases p s with ⟨-, e⟩ | ⟨-, -, -, e⟩ | ⟨hin, hout, hne, e⟩ <;> rw [e]
  · exact State.Stored.inv_of_not_busy { h.clearRun with } nofun nofun (fun _ => ⟨rfl, nofun, rfl, rfl⟩) nofun
  · exact State.Stored.inv_of_not_busy { h.clearRun with } nofun (fun _ => ⟨rfl, rfl, rfl, rfl⟩) nofun nofun
  · have hpos : 1 ≤ s.inLen.toNat := Nat.one_le_iff_ne_zero.2 fun h0 => hne (BitVec.eq_of_toNat_eq h0)
    have hextent : s.mode = false → (Machine.clearRun s).outExtent = 0 := fun hm => by simp [hm]
    exact State.Running.inv
      ⟨rfl, { h.clearRun with }, ⟨hin, hout⟩, Nat.zero_le _, ⟨rfl, rfl, rfl, rfl⟩, hextent⟩
      (fun _ => ⟨rfl, rfl, rfl, hpos⟩) nofun

/-- Outside `BUSY` the invariant does not look at the lengths, and `MODE` takes no bit the block has not (R19). -/
theorem State.Inv.writeReg (h : s.Inv p) (r : HostReg) (v : Word) : (writeReg p r v s).Inv p := by
  by_cases hb : s.st = .busy
  · cases r with
    | decMode | decInLen | decOutCap => rw [Machine.writeReg, if_pos hb]; exact h
    | _ => exact h
  · cases r with
    | decMode =>
      rw [writeReg_decMode hb]
      have hstored : State.Stored p { s with mode := v.getLsbD 0 && p.hasVonly } :=
        { h.stored with vonlyHardwired := fun hv => (Bool.and_eq_true_iff.1 hv).2 }
      exact hstored.inv_of_not_busy hb h.doneResult h.errorResult h.idleResult
    | decInLen =>
      rw [writeReg_decInLen hb]
      exact State.Stored.inv_of_not_busy { h with } hb h.doneResult h.errorResult h.idleResult
    | decOutCap =>
      rw [writeReg_decOutCap hb]
      exact State.Stored.inv_of_not_busy { h with } hb h.doneResult h.errorResult h.idleResult
    | _ => exact h

theorem State.Inv.writeInWindow (h : s.Inv p) (a : Nat) (b : Byte) : (writeInWindow p a b s).Inv p := by
  unfold Machine.writeInWindow
  split
  next ha => exact { h with inWf := write_wf h.inWf a b, inAddr := write_below h.inAddr ha.1 b }
  next => exact h

theorem State.Inv.hostAccess (h : s.Inv p) (op : HostOp) : (hostAccess p op s).Inv p := by
  cases op with
  | readReg r => exact { h with }
  | writeReg r v => exact h.writeReg r v
  | readIn a => exact { h with }
  | writeIn a b => exact h.writeInWindow a b
  | readOut a => exact { h with }
  | writeOut a b => exact h

theorem State.Inv.hostTurn (h : s.Inv Config.params) {op : HostOp} (hturn : hostTurn op s = .next t) :
    t.Inv Config.params := by
  rcases decodeHost_cases op with ⟨hd, -⟩ | ⟨v, hd⟩ | ⟨b, hd⟩ | hd | hd
  · have hx := (hostTurn_of_command hd s).symm.trans hturn
    by_cases hb : s.st = .busy
    · cases (execDecStart_of_busy hb).symm.trans hx; exact h
    · cases (execDecStart_of_not_busy hb).symm.trans hx; exact h.stored.startRun_inv
  · cases (hostTurn_of_command hd s).symm.trans hturn; exact { h with }
  · cases (hostTurn_of_command hd s).symm.trans hturn; exact { h with }
  · cases (hostTurn_of_command hd s).symm.trans hturn; exact { h with }
  · cases (hostTurn_of_access hd s).symm.trans hturn; exact h.hostAccess op

/-! ### DEC's turn (R112) -/

theorem first_eq_false_of_dialectOf (h : dialectOf s ≠ .first) : s.first = false := by
  by_contra hf
  exact h (if_pos (Bool.not_eq_false _ ▸ hf))

/-- After a decoded opcode the first is behind (R16). -/
theorem exec_decoded_ends_later {i : Instr} {rest : List Byte}
    (hd : decode (dialectOf s) (streamTail s) = .instr i rest) (hx : exec i s = .next t) :
    ∃ u, LevelKnown s u ∧ u.first = false ∧ OpcodeEnds s u t := by
  obtain ⟨hwf, hfits, -⟩ := spells_of_decode hd
  by_cases hfirst : dialectOf s = .first
  · obtain ⟨m, h⟩ := exec_first_ends hwf (hfirst ▸ hfits) hx
    exact ⟨_, .inr ⟨m, rfl⟩, rfl, h⟩
  · exact ⟨s, .inl rfl, first_eq_false_of_dialectOf hfirst, exec_later_ends hwf hfirst hfits hx⟩

theorem State.Stored.setLevel (h : s.Stored p) (m : BitVec 3) : (setLevel m s).Stored p := { h with }

theorem State.Running.of_levelKnown (h : s.Running p) (hu : LevelKnown s u) : u.Running p := by
  rcases hu with rfl | ⟨m, rfl⟩
  · exact h
  · exact { h with stored := h.stored.setLevel m }

/-- The error entry records the cause at the tag, and the output stays (R215). -/
theorem State.Stored.raiseDecodeError_inv (h : s.Stored p) {code : ErrCode} (hc : code ≠ .none) (a : Word) :
    (raiseDecodeError code a s).Inv p :=
  State.Stored.inv_of_not_busy { h with } nofun nofun (fun _ => ⟨rfl, hc, rfl, rfl⟩) nofun

/-- The new content of `OUT` lies in the buffer, and with what was written before it leaves no gap (R183). -/
theorem State.Stored.putOut (h : s.Stored p) {m : Memory} {len : Nat} (hm : OutWrite s m len)
    (hmax : s.op.toNat + len ≤ p.outMax) (hextent : s.mode = false → s.outExtent = s.op.toNat) :
    (putOut m len s).Stored p := by
  unfold Machine.putOut
  split
  next => exact h
  next hmode =>
    refine { h with outWf := hm.wf h.outWf, outAddr := fun c hc => ?_, outWritten := fun a ha => ?_ }
    · rcases hm.mem c hc with ⟨-, hlt⟩ | hc
      · exact hlt.trans_le hmax
      · exact h.outAddr c hc
    · rcases Nat.lt_or_ge a s.op.toNat with hlt | hge
      · rw [hm.outside a (.inl hlt)]
        exact h.outWritten a (hextent (Bool.not_eq_true _ ▸ hmode) ▸ hlt)
      · exact hm.inside a hge ha

theorem OutWrite.of_levelKnown {m : Memory} {len : Nat} (hm : OutWrite s m len) (hu : LevelKnown s u) :
    OutWrite u m len := by
  rcases hu with rfl | ⟨l, rfl⟩
  · exact hm
  · exact { hm with }

theorem State.Running.advance_putOut (h : s.Running p) {m : Memory} {len : Nat} (hm : OutWrite s m len)
    (hfit : s.op.toNat + len ≤ s.outCap.toNat) (n : Nat) : (advance n len (putOut m len s)).Running p where
  busy := by simpa using h.busy
  stored := { h.stored.putOut hm (hfit.trans h.lengths.2) h.extent with }
  lengths := by simpa using h.lengths
  out := by simpa [toWord_toNat hfit] using hfit
  result := by simpa using h.result
  extent hmode := by simp_all [toWord_toNat hfit]

/-- The stop rule leaves a tag and one more byte to a run that goes on (R116). -/
theorem State.Running.stopRule_inv (h : s.Running p) (hfirst : s.first = false) (hop : 1 ≤ s.op.toNat) :
    (stopRule s).Inv p := by
  rcases stopRule_cases s with ⟨-, -, e⟩ | ⟨hroom, e⟩ <;> rw [e]
  · obtain ⟨-, hclear⟩ := h.result
    exact State.Stored.inv_of_not_busy { h.stored with } nofun (fun _ => ⟨rfl, hclear⟩) nofun nofun
  · exact h.inv (fun hf => absurd (hf.symm.trans hfirst) (by decide)) fun _ => ⟨hop, hroom h.busy⟩

theorem State.Inv.decTurn (h : s.Inv p) (hturn : decTurn s = .next t) : t.Inv p := by
  rcases decTurn_cases s with ⟨-, e⟩ | ⟨hb, i, rest, v, hd, hx, e⟩ | ⟨hb, r, -, e⟩
  · cases e.symm.trans hturn; exact h
  · cases e.symm.trans hturn
    obtain ⟨u, hu, hfirst, hends⟩ := exec_decoded_ends_later hd hx
    have hrun : u.Running p := (h.running hb).of_levelKnown hu
    obtain ⟨code, hc, -, rfl⟩ | ⟨n, len, m, hn, hlen, hin, hout, hm, rfl⟩ := hends
    · rw [stopRule_of_error rfl]
      exact hrun.stored.raiseDecodeError_inv hc _
    · have hop := (movesForward_of_write hu hn hlen hin hout hm).op_lt
      have hfit : u.op.toNat + len ≤ u.outCap.toNat := by rcases hu with rfl | ⟨l, rfl⟩ <;> exact hout
      exact (hrun.advance_putOut (hm.of_levelKnown hu) hfit _).stopRule_inv (by simpa using hfirst) (by omega)
  · cases e.symm.trans hturn
    obtain ⟨code, u, e, hc, hu⟩ := fetchError_cases r s
    rw [e]
    refine ((h.running hb).of_levelKnown hu).stored.raiseDecodeError_inv ?_ _
    rcases hc with rfl | rfl <;> decide

theorem State.Inv.turn (h : s.Inv Config.params) {e : Input} (hturn : turn e s = .next t) :
    t.Inv Config.params := by
  cases e with
  | host op => exact h.hostTurn hturn
  | dec => exact h.decTurn hturn
  | reset => cases hturn; exact resetBlock_inv _ s

end Sys2Proof.Machine
end

section
/-! PROOFS. The statements of spec/45_validator.md: the invariant of the machine, streams cut off inside an opcode,
validate-only runs, and the capacity of a valid stream. -/

namespace Sys2Proof.Proofs

open Sys2Proof.Machine Sys2Proof.Claim

/-- Settles O32: by whose turn it is. RESET and a start set up the invariant anew; an access touches no part of it that
counts in its `STATE`; an opcode of DEC keeps the output gapless below `OP`, and the stop rule the two bytes to come. -/
theorem everyStepKeepsTheInvariant : Obligations.EveryStepKeepsTheInvariant := by
  intro s t h hstep
  cases hin : s.inputs with
  | nil => exact h.decTurn ((step_of_no_input hin).symm.trans hstep)
  | cons e rest =>
    have h' : State.Inv Config.params { s with inputs := rest } := { h with }
    exact h'.turn ((step_of_input hin).symm.trans hstep)

/-- Settles O23: what is left of the stream decodes to no opcode, since the opcode it begins decodes to itself, so the
step raises for the missing bytes. -/
theorem cutOffOpcodeRaisesUnderrun : Obligations.CutOffOpcodeRaisesUnderrun := by
  intro s d i missing ⟨hin, hb⟩ hd hlater hw hf hbs hmissing hcut
  have hreject : decode (dialectOf s) (streamTail s) = .reject (.truncated none) := by
    rw [dialectOf_eq_of_dialectIs hd]
    exact decode_later_cut hlater hw hf hbs hmissing hcut
  rw [step_of_no_input hin, decTurn_of_reject hb hreject]
  rfl

/-- Settles O36: a simulation. The validate-only run is step by step the normal run with the mode set and the first
content of `OUT`. -/
theorem validateOnlyRunAgrees : Obligations.ValidateOnlyRunAgrees := by
  rintro n s t s' t' hin rfl - hs ht
  have hstart : VonlyTwin s.outBuf s { s with mode := true } := ⟨hin, s.outExtent, rfl⟩
  obtain ⟨-, extent, rfl⟩ := run_keeps_relation VonlyTwin.step n hstart hs ht
  exact ⟨⟨rfl, rfl, rfl, rfl, rfl, rfl, rfl, rfl, rfl⟩, rfl⟩

/-- Settles O37: the decoded length lies in the smaller capacity, so in the larger, and that is all a run that ends well
needs of its capacity. -/
theorem largerCapacityKeepsValidity : Obligations.LargerCapacityKeepsValidity :=
  fun _ _ _ _ _ _ h hle => decodeStream_done_of_le h ((decodeStream_done_le h).trans hle)

/-- Settles O38: the decoded length fits itself, and as it lies in a capacity it fits the register. -/
theorem decodedLengthIsCapacityEnough : Obligations.DecodedLengthIsCapacityEnough :=
  fun _ _ _ _ _ h => decodeStream_done_of_le h (toWord_toNat (decodeStream_done_le h)).ge

end Sys2Proof.Proofs
end

section
/-! SUPPORT. The emission rules as encodings (spec/46_encoder_reference.md R191 to R196): what the encoder emits for a
literal run or a match is the encoding of the instruction with these bytes or with this length and distance. -/

namespace Sys2Proof.Machine

/-! ### Bytes computed with shifts and masks -/

theorem ofNat_shiftLeft_or {l x : Nat} (hl : l < 8) (hx : x < 32) :
    BitVec.ofNat 8 ((l <<< 5) ||| x) = tagByte (BitVec.ofNat 3 l) (BitVec.ofNat 5 x) := by
  have hor : (l <<< 5) ||| x < 2 ^ 8 :=
    Nat.or_lt_two_pow (by rw [Nat.shiftLeft_eq]; omega) (by omega)
  apply BitVec.eq_of_toNat_eq
  rw [tagByte, BitVec.toNat_append, BitVec.toNat_ofNat, BitVec.toNat_ofNat, BitVec.toNat_ofNat,
    Nat.mod_eq_of_lt hor, Nat.mod_eq_of_lt hl, Nat.mod_eq_of_lt hx]

theorem ofNat_and_mask (n : Nat) : BitVec.ofNat 8 (n &&& 0xFF) = BitVec.ofNat 8 n := by
  apply BitVec.eq_of_toNat_eq
  rw [BitVec.toNat_ofNat, BitVec.toNat_ofNat, Nat.and_two_pow_sub_one_eq_mod n 8, Nat.mod_mod]

/-! ### Literal runs (R191) -/

theorem litBytes_eq_encode {lits : List Byte} (h : litsOk lits = true) : litBytes lits = encode (.lit lits) := by
  have hlen := (litsOk_iff lits).1 h
  have htag := ofNat_shiftLeft_or (l := 0) (x := lits.length - 1) (by omega) (by omega)
  rw [Nat.zero_shiftLeft, Nat.zero_or] at htag
  rw [litBytes, htag]
  rfl

/-! ### Matches (R194, R196) -/

section
variable {len dist : Nat}

theorem matchTag_eq_tagByte {l : Nat} (hl : l < 8) (hd : dist ≤ 8192) :
    BitVec.ofNat 8 ((l <<< 5) ||| ((dist - 1) >>> 8)) = tagByte (BitVec.ofNat 3 l) (asmHi dist) :=
  ofNat_shiftLeft_or hl (by rw [Nat.shiftRight_eq_div_pow]; omega)

/-- One level-1 match opcode of the encoder is the one spelling of its length and distance. -/
theorem exists_encode_eq_emitM1 (h3 : 3 ≤ len) (h264 : len ≤ 264) (h1 : 1 ≤ dist) (hd : dist ≤ 8192) :
    ∃ i, SpellsMatch1 len dist i ∧ emitM1 (len - 2) (dist - 1) = encode i := by
  rcases Nat.lt_or_ge 8 len with h9 | h8
  · refine ⟨_, (spellsMatch1_long_iff h9 h264 h1 hd _).2 rfl, ?_⟩
    rw [emitM1, if_neg (by omega), matchTag_eq_tagByte (by omega) hd, ofNat_and_mask, Nat.sub_sub]
    rfl
  · refine ⟨_, (spellsMatch1_short_iff h3 h8 h1 hd _).2 rfl, ?_⟩
    rw [emitM1, if_pos (by omega), matchTag_eq_tagByte (by omega) hd, ofNat_and_mask]
    rfl

end

/-- The level-2 emission, by the near or far form of the distance and the short or long form of the length. -/
theorem emitMatch2_eq_encode (len dist : Nat) : emitMatch2 len dist = encode (levelTwoSpelling len dist) := by
  have hnear_iff : dist - 1 < Config.maxL2Distance ↔ dist ≤ 8191 := by rw [Config.maxL2Distance]; omega
  have hshort_iff : len - 2 < 7 ↔ len ≤ 8 := by omega
  have hlong : len - 2 - 7 = len - 9 := Nat.sub_sub ..
  have hexcess : dist - 1 - Config.maxL2Distance = dist - 8192 := Nat.sub_sub ..
  have hfar : ∀ l < 8, BitVec.ofNat 8 ((l <<< 5) ||| 31) = tagByte (BitVec.ofNat 3 l) Config.farMarkHi :=
    fun l hl => ofNat_shiftLeft_or hl (by omega)
  unfold emitMatch2 levelTwoSpelling
  simp only [hnear_iff, hshort_iff, hlong, hexcess, ofNat_and_mask]
  by_cases hnear : dist ≤ 8191
  · by_cases hshort : len ≤ 8
    · simp only [if_pos hnear, if_pos hshort, matchTag_eq_tagByte (show len - 2 < 8 by omega) (hnear.trans (by omega))]
      rfl
    · simp only [if_pos hnear, if_neg hshort, matchTag_eq_tagByte (show 7 < 8 by omega) (hnear.trans (by omega))]
      simp [encode, asmLo]
  · by_cases hshort : len ≤ 8
    · simp only [if_neg hnear, if_pos hshort, hfar _ (show len - 2 < 8 by omega)]
      rfl
    · simp only [if_neg hnear, if_neg hshort, hfar 7 (by omega)]
      simp [encode, asmExHi, asmExLo]

end Sys2Proof.Machine
end

section
/-! SUPPORT. What the opcodes of a stream describe as LZ77 data (spec/46_encoder_reference.md R199), and that the
emission of a list of items is a sequence of opcodes that describe the items' data. -/

namespace Sys2Proof.Machine

open Sys2Proof.Claim

/-! ### LZ77 copies (R9, R199) -/

/-- The bytes a copy of `n` bytes from `dist` before the end adds: the last `dist` bytes, repeated. -/
def repeated (acc : List Byte) (dist n : Nat) : List Byte :=
  (List.range n).map fun i => acc.getD (acc.length - dist + i % dist) 0

@[simp] theorem length_repeated (acc : List Byte) (dist n : Nat) : (repeated acc dist n).length = n := by
  simp [repeated]

/-- After the first byte of a copy is out, the rest of it repeats the then last `dist` bytes. -/
theorem repeated_succ {acc : List Byte} {dist : Nat} (h1 : 1 ≤ dist) (hd : dist ≤ acc.length) (n : Nat) :
    repeated acc dist (n + 1) = acc.getD (acc.length - dist) 0 ::
      repeated (acc ++ [acc.getD (acc.length - dist) 0]) dist n := by
  rw [repeated, List.range_succ_eq_map, List.map_cons, List.map_map, Nat.zero_mod, Nat.add_zero, repeated]
  refine congrArg (List.cons _) (List.map_congr_left fun i _ => ?_)
  have hlt : i % dist < dist := Nat.mod_lt _ h1
  simp only [Function.comp_apply, Nat.succ_eq_add_one, List.length_append, List.length_singleton]
  by_cases hwrap : i % dist + 1 = dist
  · have hmod : (i + 1) % dist = 0 := by rw [← Nat.mod_add_mod, hwrap, Nat.mod_self]
    rw [hmod, Nat.add_zero, List.getD_append_right _ _ _ _ (by omega),
      show acc.length + 1 - dist + i % dist - acc.length = 0 by omega]
    rfl
  · have hmod : (i + 1) % dist = i % dist + 1 := by rw [← Nat.mod_add_mod, Nat.mod_eq_of_lt (by omega)]
    rw [hmod, List.getD_append _ _ _ _ (by omega)]
    congr 1; omega

theorem lzCopy_eq_append {dist : Nat} (h1 : 1 ≤ dist) (n : Nat) {acc : List Byte} (hd : dist ≤ acc.length) :
    lzCopy acc dist n = acc ++ repeated acc dist n := by
  induction n generalizing acc with
  | zero => exact (List.append_nil acc).symm
  | succ n ih =>
    rw [lzCopy, ih (by rw [List.length_append]; omega), repeated_succ h1 hd, List.append_assoc]
    rfl

@[simp] theorem length_lzCopy (acc : List Byte) (dist n : Nat) : (lzCopy acc dist n).length = acc.length + n := by
  induction n generalizing acc with
  | zero => rfl
  | succ n ih => rw [lzCopy, ih, List.length_append, List.length_singleton]; omega

/-- A copy can be made in parts, each from the same distance (R195). -/
theorem lzCopy_add (acc : List Byte) (dist m n : Nat) :
    lzCopy acc dist (m + n) = lzCopy (lzCopy acc dist m) dist n := by
  induction m generalizing acc with
  | zero => rw [Nat.zero_add]; rfl
  | succ m ih => rw [Nat.succ_add, lzCopy, ih]; rfl

/-! ### What opcodes describe -/

/-- With the data `acc` described so far, the opcode `i` makes it `acc'`: a literal run adds its bytes, a match copies
from a distance that exists. -/
inductive Extends : Instr → List Byte → List Byte → Prop
  | lit (lits acc : List Byte) : Extends (.lit lits) acc (acc ++ lits)
  | copy {i : Instr} {len dist : Nat} {acc : List Byte} (hld : lengthAndDistance i = some (len, dist))
      (hd : dist ≤ acc.length) : Extends i acc (lzCopy acc dist len)

/-- The bytes are whole opcodes of the dialect, one after another, that take the data from `acc` to `out`. -/
inductive Describes (d : Dialect) : List Byte → List Byte → List Byte → Prop
  | nil (acc : List Byte) : Describes d [] acc acc
  | cons {i : Instr} {bs acc mid out : List Byte} (hw : i.wf = true) (hf : i.fits d = true) (hx : Extends i acc mid)
      (hrest : Describes d bs mid out) : Describes d (encode i ++ bs) acc out

section
variable {d : Dialect} {i : Instr} {bs bs' acc mid out : List Byte}

theorem Describes.single (hw : i.wf = true) (hf : i.fits d = true) (hx : Extends i acc out) :
    Describes d (encode i) acc out :=
  List.append_nil (encode i) ▸ .cons hw hf hx (.nil out)

theorem Describes.append (h : Describes d bs acc mid) (h' : Describes d bs' mid out) :
    Describes d (bs ++ bs') acc out := by
  induction h with
  | nil => exact h'
  | cons hw hf hx _ ih => rw [List.append_assoc]; exact .cons hw hf hx (ih h')

theorem Extends.length_le (h : Extends i acc mid) : acc.length ≤ mid.length := by
  cases h with
  | lit => rw [List.length_append]; omega
  | copy => rw [length_lzCopy]; omega

theorem Describes.length_le (h : Describes d bs acc out) : acc.length ≤ out.length := by
  induction h with
  | nil => exact le_rfl
  | cons _ _ hx _ ih => exact hx.length_le.trans ih

/-- A distance of 0 cannot be spelled (R175). -/
theorem lengthAndDistance_dist_pos {len dist : Nat} (h : lengthAndDistance i = some (len, dist)) : 1 ≤ dist := by
  cases i <;> cases h <;> omega

/-- The first opcode of a stream is a literal run (R198): nothing is described yet that a match could copy. -/
theorem Extends.eq_lit_of_nil (h : Extends i [] mid) : i = .lit mid := by
  cases h with
  | lit => rfl
  | copy hld hd => exact absurd (lengthAndDistance_dist_pos hld) (Nat.not_le.2 (Nat.lt_succ_of_le hd))

end

/-! ### Literal runs (R191, R192) -/

theorem describes_litBytes {d : Dialect} (hd : d ≠ .first) {lits : List Byte} (h : litsOk lits = true)
    (acc : List Byte) : Describes d (litBytes lits) acc (acc ++ lits) := by
  rw [litBytes_eq_encode h]
  exact .single h (bne_iff_ne.2 hd) (.lit lits acc)

theorem describes_litRunBytes {d : Dialect} (hd : d ≠ .first) {n : Nat} {bs : List Byte} (h1 : 1 ≤ bs.length)
    (hn : bs.length ≤ n) (acc : List Byte) : Describes d (litRunBytes n bs) acc (acc ++ bs) := by
  induction n generalizing bs acc with
  | zero => omega
  | succ n ih =>
    rw [litRunBytes, Config.maxCopy]
    split
    next h32 => exact describes_litBytes hd ((litsOk_iff bs).2 ⟨h1, h32⟩) acc
    next h32 =>
      have htake : (bs.take 32).length = 32 := List.length_take_of_le (by omega)
      have hdrop : (bs.drop 32).length = bs.length - 32 := List.length_drop
      have hgroup := describes_litBytes hd ((litsOk_iff (bs.take 32)).2 (by omega)) acc
      have hrest := ih (bs := bs.drop 32) (by omega) (by omega) (acc ++ bs.take 32)
      rw [List.append_assoc, List.take_append_drop] at hrest
      exact hgroup.append hrest

/-! ### Matches (R194 to R196) -/

section
variable {len dist : Nat} {acc : List Byte}

theorem describes_emitM1 (h3 : 3 ≤ len) (h264 : len ≤ 264) (h1 : 1 ≤ dist) (h8192 : dist ≤ 8192)
    (hd : dist ≤ acc.length) : Describes .level1 (emitM1 (len - 2) (dist - 1)) acc (lzCopy acc dist len) := by
  obtain ⟨i, ⟨hw, hf, hld⟩, he⟩ := exists_encode_eq_emitM1 h3 h264 h1 h8192
  exact he ▸ .single hw hf (.copy hld hd)

/-- Full segments of 262 bytes before a last opcode (R195). -/
theorem describes_segments (q : Nat) (h3 : 3 ≤ len) (h264 : len ≤ 264) (h1 : 1 ≤ dist) (h8192 : dist ≤ 8192)
    (hd : dist ≤ acc.length) :
    Describes .level1 ((List.replicate q (emitM1 260 (dist - 1))).flatten ++ emitM1 (len - 2) (dist - 1)) acc
      (lzCopy acc dist (262 * q + len)) := by
  induction q generalizing acc with
  | zero => rw [Nat.mul_zero, Nat.zero_add]; exact describes_emitM1 h3 h264 h1 h8192 hd
  | succ q ih =>
    have hsegment := describes_emitM1 (len := 262) (by omega) (by omega) h1 h8192 hd
    have hrest := ih (acc := lzCopy acc dist 262) (by rw [length_lzCopy]; omega)
    rw [← lzCopy_add] at hrest
    rw [List.replicate_succ, List.flatten_cons, List.append_assoc,
      show 262 * (q + 1) + len = 262 + (262 * q + len) by omega]
    exact hsegment.append hrest

theorem describes_emitMatch1 (h3 : 3 ≤ len) (h1 : 1 ≤ dist) (h8192 : dist ≤ 8192) (hd : dist ≤ acc.length) :
    Describes .level1 (emitMatch1 len dist) acc (lzCopy acc dist len) := by
  have hq : fullSegments (len - 2) = (len - 2 - 1) / 262 := rfl
  have h := describes_segments (len := len - 262 * fullSegments (len - 2)) (fullSegments (len - 2)) (by omega)
    (by omega) h1 h8192 hd
  rw [Nat.add_sub_of_le (by omega), Nat.sub_right_comm] at h
  exact h

theorem describes_emitMatch2 (h3 : 3 ≤ len) (h1 : 1 ≤ dist) (h73727 : dist ≤ 73727) (hd : dist ≤ acc.length) :
    Describes .level2 (emitMatch2 len dist) acc (lzCopy acc dist len) := by
  obtain ⟨hw, hf, hld⟩ := (spellsMatch2_iff h3 h1 h73727 _).2 rfl
  exact emitMatch2_eq_encode len dist ▸ .single hw hf (.copy hld hd)

end

/-! ### Lists of items (R199) -/

/-- The dialect of every opcode but the first (R65). -/
def levelDialect (lv2 : Bool) : Dialect := if lv2 then .level2 else .level1

theorem levelDialect_ne_first (lv2 : Bool) : levelDialect lv2 ≠ .first := by cases lv2 <;> decide

theorem describes_emitMatch {lv2 : Bool} {len dist : Nat} {acc : List Byte} (h3 : 3 ≤ len) (h1 : 1 ≤ dist)
    (hmax : dist ≤ maxDistance lv2) (hd : dist ≤ acc.length) :
    Describes (levelDialect lv2) (emitMatch lv2 len dist) acc (lzCopy acc dist len) := by
  cases lv2 with
  | false => exact describes_emitMatch1 h3 h1 hmax hd
  | true => exact describes_emitMatch2 h3 h1 hmax hd

/-- The data after one more item. -/
def expandItem (acc : List Byte) : LzItem → List Byte
  | .lits bs => acc ++ bs
  | .copy len dist => lzCopy acc dist len

theorem lzExpand_eq_foldl (items : List LzItem) : lzExpand items = items.foldl expandItem [] := rfl

theorem describes_items (lv2 : Bool) {items : List LzItem} {acc : List Byte}
    (h : itemsOk lv2 acc.length items = true) :
    Describes (levelDialect lv2) (items.flatMap (emitItem lv2)) acc (items.foldl expandItem acc) := by
  induction items generalizing acc with
  | nil => exact .nil acc
  | cons item items ih =>
    rw [List.flatMap_cons, List.foldl_cons]
    cases item with
    | lits bs =>
      simp only [itemsOk, Bool.and_eq_true, bne_iff_ne] at h
      obtain ⟨hbs, hrest⟩ := h
      rw [← List.length_append] at hrest
      exact (describes_litRunBytes (levelDialect_ne_first lv2) (List.length_pos_iff.2 hbs) le_rfl acc).append
        (ih hrest)
    | copy len dist =>
      simp only [itemsOk, Bool.and_eq_true, decide_eq_true_eq] at h
      obtain ⟨⟨⟨⟨h3, h1⟩, hd⟩, hmax⟩, hrest⟩ := h
      rw [← length_lzCopy acc dist len] at hrest
      exact (describes_emitMatch h3 h1 hmax hd).append (ih hrest)

end Sys2Proof.Machine
end

section
/-! SUPPORT. A run over a stream of opcodes makes the data they describe (spec/46_encoder_reference.md R199): a
simulation between the list semantics of the opcodes and DEC's steps. -/

namespace Sys2Proof.Machine

open Sys2Proof.Claim

/-! ### The output and the rest of the stream -/

/-- The output so far, `OUT[0 .. OP-1]`. -/
def output (s : State) : List Byte := (List.range s.op.toNat).map (outByte s)

@[simp] theorem length_output (s : State) : (output s).length = s.op.toNat := by simp [output]

theorem getD_output {s : State} {a : Nat} (h : a < s.op.toNat) : (output s).getD a 0 = outByte s a := by
  rw [List.getD_eq_getElem _ _ (by rwa [length_output])]
  simp [output]

section
variable {s t : State}

/-- Bytes written at `OP`, with those before it as they were. -/
theorem output_eq_append {new : List Byte} (hop : t.op.toNat = s.op.toNat + new.length)
    (hinside : ∀ i, (h : i < new.length) → outByte t (s.op.toNat + i) = new[i])
    (houtside : outsideUnchanged new.length s t) : output t = output s ++ new := by
  rw [output, hop, List.range_add, List.map_append, List.map_map]
  congr 1
  · exact List.map_congr_left fun a ha => houtside a (.inl (List.mem_range.1 ha))
  · exact List.ext_getElem (by simp) fun i _ h => by simpa using hinside i h

theorem length_streamTail (s : State) : (streamTail s).length = s.inLen.toNat - s.ip.toNat := by simp [streamTail]

theorem streamTail_eq_drop (h : onlyCursorsAndOut s t) {n : Nat} (hip : t.ip.toNat = s.ip.toNat + n) :
    streamTail t = (streamTail s).drop n := by
  have hlen : t.inLen = s.inLen := (congrArg State.inLen h :)
  have hbyte : ∀ a, inByte t a = inByte s a := fun a => (congrArg (inByte · a) h :)
  refine List.ext_getElem ?_ fun j _ _ => ?_
  · rw [List.length_drop, length_streamTail, length_streamTail, hlen, hip]; omega
  · simp [streamTail, hip, hbyte, Nat.add_assoc]

/-! ### One opcode -/

/-- An opcode of `n` bytes has completed and made the output `out`. -/
structure Completes (n : Nat) (out : List Byte) (s t : State) : Prop where
  ip : t.ip.toNat = s.ip.toNat + n
  out : output t = out
  frame : onlyCursorsAndOut s t

theorem completes_of_literalDone {lits : List Byte} (h : literalDone lits s t) (hmode : s.mode = false) :
    Completes (1 + lits.length) (output s ++ lits) s t := by
  obtain ⟨hip, hop, hinside, houtside, -, hframe⟩ := h
  exact ⟨by omega, output_eq_append hop (hinside hmode) houtside, hframe⟩

theorem completes_of_matchDone {n len dist : Nat} (h : matchDone n len dist s t) (hmode : s.mode = false)
    (h1 : 1 ≤ dist) (hd : dist ≤ s.op.toNat) : Completes (1 + n) (lzCopy (output s) dist len) s t := by
  obtain ⟨hip, hop, hinside, houtside, -, hframe⟩ := h
  refine ⟨by omega, ?_, hframe⟩
  rw [lzCopy_eq_append h1 len (by rwa [length_output])]
  refine output_eq_append (by rwa [length_repeated]) (fun i hi => ?_) (by rwa [length_repeated])
  rw [length_repeated] at hi
  have hlt : i % dist < dist := Nat.mod_lt _ h1
  rw [hinside hmode i hi]
  simp only [repeated, List.getElem_map, List.getElem_range, length_output]
  rw [getD_output (by omega)]

/-- Every match follows the rule of matches with its own operand bytes, length and distance (R141 to R158). -/
theorem matchRule_of_lengthAndDistance {i : Instr} {len dist : Nat} (h : lengthAndDistance i = some (len, dist)) :
    matchRule i (operandBytes i) len dist := by
  cases i with
  | m1s l hi lo => cases h; exact matchRule_of_exec (Nat.succ_pos _) (by omega) (exec_m1s l hi lo)
  | m1l hi ext lo => cases h; exact matchRule_of_exec (Nat.succ_pos _) (by omega) (exec_m1l hi ext lo)
  | m2ns l hi lo => cases h; exact matchRule_of_exec (Nat.succ_pos _) (by omega) (exec_m2ns l hi lo)
  | m2nl hi k c lo => cases h; exact matchRule_of_exec (Nat.succ_pos _) (by omega) (exec_m2nl hi k c lo)
  | m2fs l exhi exlo => cases h; exact matchRule_of_exec (Nat.succ_pos _) (by omega) (exec_m2fs l exhi exlo)
  | m2fl k c exhi exlo => cases h; exact matchRule_of_exec (Nat.succ_pos _) (by omega) (exec_m2fl k c exhi exlo)
  | _ => cases h

theorem encodeLength_statement (i : Instr) : Laws.EncodeLength.Statement i := by
  cases i with
  | hdr m lits => exact Laws.EncodeLength.hdr m lits
  | lit lits => exact Laws.EncodeLength.lit lits
  | m1s l hi lo => exact Laws.EncodeLength.m1s l hi lo
  | m1l hi ext lo => exact Laws.EncodeLength.m1l hi ext lo
  | m2ns l hi lo => exact Laws.EncodeLength.m2ns l hi lo
  | m2nl hi k c lo => exact Laws.EncodeLength.m2nl hi k c lo
  | m2fs l exhi exlo => exact Laws.EncodeLength.m2fs l exhi exlo
  | m2fl k c exhi exlo => exact Laws.EncodeLength.m2fl k c exhi exlo
  | adlLoad v => exact Laws.EncodeLength.adlLoad v
  | adlPush b => exact Laws.EncodeLength.adlPush b
  | adlRead => exact Laws.EncodeLength.adlRead
  | decStart => exact Laws.EncodeLength.decStart

/-- A bitstream opcode is its tag and its operand bytes (R62). -/
theorem length_encode {i : Instr} {d : Dialect} (hf : i.fits d = true) : (encode i).length = 1 + operandBytes i := by
  have h := encodeLength_statement i
  rwa [Laws.EncodeLength.Statement, (encodeHost_eq_none_iff i).2 ⟨d, hf⟩] at h

/-- An opcode has at least one operand byte (R118). -/
theorem operandBytes_pos {i : Instr} {d : Dialect} (hw : i.wf = true) (hf : i.fits d = true) : 1 ≤ operandBytes i := by
  cases i with
  | hdr m lits => exact litsOk_pos (Bool.and_eq_true_iff.1 hw).2
  | lit lits => exact litsOk_pos hw
  | adlLoad v => cases hf
  | adlPush b => cases hf
  | adlRead => cases hf
  | decStart => cases hf
  | _ => exact Nat.succ_pos _

/-- An opcode whose bytes are in the stream and whose output fits completes and does to the output what it
describes. -/
theorem exec_completes {i : Instr} {out : List Byte} (hx : Extends i (output s) out) (hmode : s.mode = false)
    (hin : s.ip.toNat + (1 + operandBytes i) ≤ s.inLen.toNat) (hcap : out.length ≤ s.outCap.toNat) :
    ∃ t, exec i s = .next t ∧ Completes (1 + operandBytes i) out s t := by
  generalize hacc : output s = acc at hx
  cases hx with
  | lit lits =>
    subst hacc
    rw [List.length_append, length_output] at hcap
    exact ⟨_, rfl, completes_of_literalDone (literalRun_done ((Nat.add_assoc ..).trans_le hin) hcap) hmode⟩
  | copy hld hd =>
    subst hacc
    rw [length_lzCopy, length_output] at hcap
    rw [length_output] at hd
    obtain ⟨t, hexec, hdone⟩ := (matchRule_of_lengthAndDistance hld s).1 (by omega) hcap hd
    exact ⟨t, hexec, completes_of_matchDone hdone hmode (lengthAndDistance_dist_pos hld) hd⟩

/-! ### A run between two opcodes -/

/-- DEC runs in normal mode and dialect `d`, the stream still holds `bs`, and the output is `acc`. -/
structure Decoding (d : Dialect) (cap : Word) (bs acc : List Byte) (s : State) : Prop where
  moves : decMoves s
  mode : s.mode = false
  dialect : dialectOf s = d
  cap : s.outCap = cap
  tail : streamTail s = bs
  out : output s = acc

section
variable {d : Dialect} {cap : Word} {bs acc out : List Byte} {i : Instr}

theorem Decoding.of_completes (h : Decoding d cap bs acc s) {n : Nat} (hc : Completes n out s t) :
    Decoding d cap (bs.drop n) out t where
  moves := ⟨(congrArg State.inputs hc.frame :).trans h.moves.1, (congrArg State.st hc.frame :).trans h.moves.2⟩
  mode := (congrArg State.mode hc.frame :).trans h.mode
  dialect := (congrArg dialectOf hc.frame :).trans h.dialect
  cap := (congrArg State.outCap hc.frame :).trans h.cap
  tail := h.tail ▸ streamTail_eq_drop hc.frame hc.ip
  out := hc.out

theorem Decoding.setLevel (h : Decoding d cap bs acc s) (m : BitVec 3) :
    Decoding (levelDialect (m.getLsbD 0)) cap bs acc (setLevel m s) :=
  { h with dialect := by simp [dialectOf, levelDialect] }

/-- An opcode whose bytes head the stream completes, and the run goes on after it. -/
theorem Decoding.exec_head {head : List Byte} (h : Decoding d cap (head ++ bs) acc s)
    (hlen : head.length = 1 + operandBytes i) (hx : Extends i acc out) (hcap : out.length ≤ cap.toNat) :
    ∃ t, exec i s = .next t ∧ Decoding d cap bs out t := by
  have htail := congrArg List.length h.tail
  rw [length_streamTail, List.length_append, hlen] at htail
  obtain ⟨t, hexec, hc⟩ := exec_completes (h.out ▸ hx) h.mode (by omega) (h.cap ▸ hcap)
  have ht := h.of_completes hc
  rw [← hlen, List.drop_left] at ht
  exact ⟨t, hexec, ht⟩

theorem Decoding.step_eq (h : Decoding d cap (encode i ++ bs) acc s) (hw : i.wf = true) (hf : i.fits d = true)
    (hexec : exec i s = .next t) : step s = .next (stopRule t) := by
  have hdecode : decode (dialectOf s) (streamTail s) = .instr i bs := by
    rw [h.dialect, h.tail]
    exact Proofs.decodeOfEncodeIsTheInstruction d i bs hw hf
  rw [step_of_no_input h.moves.1, decTurn_of_instr h.moves.2 hdecode, hexec]
  rfl

/-! ### The run (R116, R117) -/

/-- The stop rule does nothing before another opcode, which has two bytes or more. -/
theorem Decoding.stopRule_eq (h : Decoding d cap (encode i ++ bs) acc s) (hw : i.wf = true) (hf : i.fits d = true) :
    stopRule s = s := by
  have hlen := length_encode hf
  have hpos := operandBytes_pos hw hf
  have htail := congrArg List.length h.tail
  rw [length_streamTail, List.length_append] at htail
  rcases stopRule_cases s with ⟨-, hstop, -⟩ | ⟨-, e⟩
  · omega
  · exact e

/-- At the end of the stream the stop rule ends the run, whose result is the output. -/
theorem Decoding.resultOf_stopRule (h : Decoding d cap [] acc s) :
    (stopRule s).st = .done ∧ resultOf (stopRule s) = .done acc.length acc := by
  have htail := congrArg List.length h.tail
  rw [length_streamTail, List.length_nil] at htail
  have hop : acc.length = s.op.toNat := h.out ▸ length_output s
  have hmode := h.mode
  rcases stopRule_cases s with ⟨-, -, e⟩ | ⟨hgo, -⟩
  · rw [e]
    refine ⟨rfl, ?_⟩
    rw [hop, ← h.out]
    simp only [resultOf, hmode]
    rfl
  · have := hgo h.moves.2
    omega

/-- A run that has come to a sequence of opcodes ends well, with the data they describe. -/
theorem runSteps_of_describes (hb : Describes d bs acc out) {s : State} (h : Decoding d cap bs acc t)
    (hstep : step s = .next (stopRule t)) (hcap : out.length ≤ cap.toNat) {k : Nat} (hk : bs.length ≤ k) :
    runSteps (k + 1) s = .done out.length out := by
  induction hb generalizing s t k with
  | nil acc =>
    obtain ⟨hdone, hres⟩ := h.resultOf_stopRule
    rw [runSteps_succ hstep, if_neg (by rw [hdone]; decide), hres]
  | cons hw hf hx hrest ih =>
    obtain ⟨u, hexec, hu⟩ := h.exec_head (length_encode hf) hx (hrest.length_le.trans hcap)
    have hlen := length_encode hf
    rw [List.length_append] at hk
    obtain ⟨k, rfl⟩ : ∃ n, k = n + 1 := Nat.exists_eq_succ_of_ne_zero (by omega)
    rw [runSteps_succ hstep, h.stopRule_eq hw hf, if_pos h.moves.2]
    exact ih hu (h.step_eq hw hf hexec) hcap (by omega)

end

end

/-! ### From the start of the stream (R120, R197) -/

theorem decoding_loadedState {bs : List Byte} (hlen : bs.length < 2 ^ 64) (cap : Word) :
    Decoding .first cap bs [] (loadedState bs cap false) where
  moves := decMoves_loadedState bs cap false
  mode := rfl
  dialect := rfl
  cap := rfl
  tail := by
    have hin : (loadedState bs cap false).inLen.toNat = bs.length := Nat.mod_eq_of_lt hlen
    have hip : (loadedState bs cap false).ip.toNat = 0 := rfl
    refine List.ext_getElem (by rw [length_streamTail, hin, hip, Nat.sub_zero]) fun j _ hj => ?_
    have hbyte := lookup_storeBytes_inside [] 0 bs hj
    simp only [streamTail, List.getElem_map, List.getElem_range, hip, inByte]
    exact congrArg (Option.getD · _) hbyte
  out := rfl

/-- The level mark turns the first literal run into the stream's first opcode (R197). -/
theorem markLevel_encode_lit (lv2 : Bool) (lits bs : List Byte) :
    markLevel lv2 (encode (.lit lits) ++ bs) = encode (.hdr (BitVec.ofNat 3 lv2.toNat) lits) ++ bs := by
  cases lv2 with
  | false => rfl
  | true =>
    have hmark : ∀ x : BitVec 5, tagByte 0 x ||| 0x20 = tagByte 1 x := by decide
    exact congrArg (· :: (lits ++ bs)) (hmark _)

theorem exec_hdr_of_legal {m : BitVec 3} (hm : m.toNat < 2) (lits : List Byte) (s : State) :
    exec (.hdr m lits) s = exec (.lit lits) (setLevel m s) :=
  congrArg Host.Outcome.next (if_neg (Nat.not_le.2 hm))

/-- A first opcode sets the level and runs as its literal run (R114), and the opcodes after it are of that level. -/
theorem decodeStream_encode_hdr {m : BitVec 3} (hm : m.toNat < 2) {lits bs out : List Byte}
    (hl : litsOk lits = true) (hrest : Describes (levelDialect (m.getLsbD 0)) bs lits out)
    (hlen : (encode (.hdr m lits) ++ bs).length < 2 ^ 64) {cap : Word} (hcap : out.length ≤ cap.toNat) :
    decodeStream (encode (.hdr m lits) ++ bs) cap false = .done out.length out := by
  have hw : (Instr.hdr m lits).wf = true := Bool.and_eq_true_iff.2 ⟨decide_eq_true hm, hl⟩
  have hstart := decoding_loadedState hlen cap
  obtain ⟨t, hexec, ht⟩ := (hstart.setLevel m).exec_head (i := .lit lits)
    (length_encode (i := .hdr m lits) (d := .first) rfl) (.lit lits []) (hrest.length_le.trans hcap)
  have hstep := hstart.step_eq hw rfl ((exec_hdr_of_legal hm lits _).trans hexec)
  have hne : encode (.hdr m lits) ++ bs ≠ [] := List.cons_ne_nil _ _
  rw [decodeStream_of_ne_nil hne]
  exact runSteps_of_describes hrest ht hstep hcap (List.length_append ▸ Nat.le_add_left ..)

/-- The marked stream of a sequence of opcodes decodes to the data they describe. -/
theorem decodeStream_markLevel {lv2 : Bool} {bs out : List Byte} (hb : Describes (levelDialect lv2) bs [] out)
    (hlen : (markLevel lv2 bs).length < 2 ^ 64) {cap : Word} (hcap : out.length ≤ cap.toNat) :
    decodeStream (markLevel lv2 bs) cap false = .done out.length out := by
  cases hb with
  | nil => rfl
  | cons hw _ hx hrest =>
    cases hx.eq_lit_of_nil
    rw [markLevel_encode_lit] at hlen ⊢
    cases lv2 with
    | false => exact decodeStream_encode_hdr (m := 0) (by decide) hw hrest hlen hcap
    | true => exact decodeStream_encode_hdr (m := 1) (by decide) hw hrest hlen hcap

end Sys2Proof.Machine
end

section
/-! PROOFS. The statements of spec/46_encoder_reference.md: the encoder's emission rules and its canonical streams. -/

namespace Sys2Proof.Proofs

open Sys2Proof.Machine

/-- Settles O47: the instruction can only be the one spelling of the length and distance, and that is emitted. -/
theorem levelTwoEmissionIsTheEncoding : Obligations.LevelTwoEmissionIsTheEncoding := by
  intro len dist i h3 h1 hd hw hf hld
  rw [(spellsMatch2_iff h3 h1 hd i).1 ⟨hw, hf, hld⟩]
  exact emitMatch2_eq_encode len dist

/-- Settles O39: the items are emitted as opcodes that describe the items' data, and a run over opcodes makes the data
they describe. -/
theorem canonicalStreamsRoundTrip : Obligations.CanonicalStreamsRoundTrip :=
  fun lv2 _ _ hok hlen hcap => decodeStream_markLevel (describes_items lv2 hok) hlen hcap

end Sys2Proof.Proofs
end

section
/-! SUPPORT. Decode errors (spec/60_exceptions.md): which bytes the first opcode is rejected for, and what a turn of DEC
that raises has done, which is to read the level and nothing else (R211, R215). -/

namespace Sys2Proof

/-- The first opcode is rejected for its marker (R67), or cut off after a legal one (R211). -/
theorem decodeFirst_reject {t : Byte} {bs : List Byte} {r : DecodeReject} (h : decodeFirst t bs = .reject r) :
    (2 ≤ (tagLen t).toNat ∧ r = .illegalLevel (tagLen t)) ∨
      ((tagLen t).toNat < 2 ∧ r = .truncated (some (tagLen t))) := by
  unfold decodeFirst at h
  split at h
  next hm => cases h; exact .inl ⟨hm, rfl⟩
  next hm =>
    split at h
    next => cases h
    next => cases h; exact .inr ⟨Nat.not_le.1 hm, rfl⟩

/-- What a first opcode begins with, at least its tag, is rejected for the missing bytes, with the marker of the tag. -/
theorem decode_first_cut {m : BitVec 3} {lits bs missing : List Byte} (hw : (Instr.hdr m lits).wf = true)
    (hbs : bs ≠ []) (hmissing : missing ≠ []) (hcut : bs ++ missing = encode (.hdr m lits)) :
    m.toNat < 2 ∧ decode .first bs = .reject (.truncated (some m)) := by
  have hm : m.toNat < 2 := of_decide_eq_true (Bool.and_eq_true_iff.1 hw).1
  refine ⟨hm, ?_⟩
  cases h : decode .first bs with
  | instr i rest => exact absurd h (not_decode_instr_of_cut hw rfl hmissing hcut)
  | reject r =>
    obtain ⟨t, bs, rfl⟩ := List.exists_cons_of_ne_nil hbs
    obtain ⟨rfl, -⟩ := List.cons.inj hcut
    rcases decodeFirst_reject h with ⟨hillegal, -⟩ | ⟨-, rfl⟩
    · rw [tagLen_tagByte] at hillegal; omega
    · rw [tagLen_tagByte]

end Sys2Proof

namespace Sys2Proof.Machine

variable {s t : State}

/-! ### The level of the first opcode (R114) -/

/-- A legal marker is 0 for level 1 and 1 for level 2. -/
theorem setLevel_of_legal {m : BitVec 3} (hm : m.toNat < 2) (s : State) :
    setLevel m s = { s with first := false, lv2 := decide (m.toNat = 1) } := by
  have hbit : m.getLsbD 0 = decide (m.toNat % 2 = 1) := Nat.testBit_zero m.toNat
  rw [setLevel, hbit, Nat.mod_eq_of_lt hm]

/-- The state in which an opcode's checks are made: in the first opcode, if there is a tag to fetch, the level is
known from it. -/
def withLevelRead (s : State) : State :=
  if s.first = true ∧ s.ip.toNat < s.inLen.toNat then
    { s with first := false, lv2 := decide (32 ≤ (inByte s s.ip.toNat).toNat) }
  else s

theorem withLevelRead_first (hf : s.first = true) (hip : s.ip.toNat < s.inLen.toNat) :
    withLevelRead s = { s with first := false, lv2 := decide (32 ≤ (inByte s s.ip.toNat).toNat) } :=
  if_pos ⟨hf, hip⟩

theorem withLevelRead_later (hf : s.first = false) : withLevelRead s = s :=
  if_neg fun h => Bool.false_ne_true (hf.symm.trans h.1)

theorem withLevelRead_noTag (hip : s.inLen.toNat ≤ s.ip.toNat) : withLevelRead s = s :=
  if_neg fun h => Nat.not_lt.2 hip h.2

@[simp] theorem withLevelRead_st (s : State) : (withLevelRead s).st = s.st := by unfold withLevelRead; split <;> rfl

@[simp] theorem withLevelRead_ip (s : State) : (withLevelRead s).ip = s.ip := by unfold withLevelRead; split <;> rfl

theorem setLevel_of_legal_tag (hf : s.first = true) (hip : s.ip.toNat < s.inLen.toNat)
    (hm : (tagLen (inByte s s.ip.toNat)).toNat < 2) :
    setLevel (tagLen (inByte s s.ip.toNat)) s = withLevelRead s := by
  have hlevel : (tagLen (inByte s s.ip.toNat)).toNat = 1 ↔ 32 ≤ (inByte s s.ip.toNat).toNat := by
    rw [tagLen_toNat] at hm ⊢; omega
  rw [setLevel_of_legal hm, withLevelRead_first hf hip, decide_eq_decide.2 hlevel]

/-! ### The bytes at `IP` -/

theorem decode_noTag (hip : s.inLen.toNat ≤ s.ip.toNat) :
    decode (dialectOf s) (streamTail s) = .reject .noTag := by
  rw [streamTail, Nat.sub_eq_zero_of_le hip]; rfl

theorem decode_of_first (hf : s.first = true) (hip : s.ip.toNat < s.inLen.toNat) :
    ∃ bs, decode (dialectOf s) (streamTail s) = decodeFirst (inByte s s.ip.toNat) bs := by
  obtain ⟨bs, htail⟩ := streamTail_eq_cons hip
  exact ⟨bs, by rw [htail, dialectOf, if_pos hf]; rfl⟩

theorem dialectOf_ne_first (hf : s.first = false) : dialectOf s ≠ .first := by
  rw [dialectOf, hf]; cases s.lv2 <;> decide

/-! ### Raising -/

/-- The codes of the checks of VAL (R171 to R174). -/
def CheckCode (c : ErrCode) : Prop := c = .inUnderrun ∨ c = .outOverflow ∨ c = .badRef

/-- A check failed, with no effect but the error's. -/
def FailsCheck (s t : State) : Prop := ∃ code, CheckCode code ∧ t = raiseDecodeError code s.ip s

theorem literalRun_failsCheck {lits : List Byte} (hb : s.st = .busy) (he : (literalRun lits s).st = .error) :
    FailsCheck s (literalRun lits s) := by
  rcases literalRun_cases lits s with ⟨-, e⟩ | ⟨-, -, e⟩ | ⟨-, -, e⟩
  · exact ⟨_, .inl rfl, e⟩
  · exact ⟨_, .inr (.inl rfl), e⟩
  · simp [e, hb] at he

theorem matchCopy_failsCheck {n len dist : Nat} (hn : 0 < n) (hb : s.st = .busy)
    (he : (matchCopy n len dist s).st = .error) : FailsCheck s (matchCopy n len dist s) := by
  rcases matchCopy_cases hn len dist s with ⟨-, e⟩ | ⟨-, -, e⟩ | ⟨-, -, -, e⟩ | ⟨-, -, -, e⟩
  · exact ⟨_, .inl rfl, e⟩
  · exact ⟨_, .inr (.inl rfl), e⟩
  · exact ⟨_, .inr (.inr rfl), e⟩
  · simp [e, hb] at he

/-- An opcode that is not the first raises by its checks only. -/
theorem exec_later_failsCheck {i : Instr} {d : Dialect} (hd : d ≠ .first) (hf : i.fits d = true) (hb : s.st = .busy)
    (hx : exec i s = .next t) (he : t.st = .error) : FailsCheck s t := by
  cases i with
  | hdr m lits => exact absurd (beq_iff_eq.1 hf) hd
  | lit lits => cases hx; exact literalRun_failsCheck hb he
  | m1s l hi lo => cases hx; exact matchCopy_failsCheck (by omega) hb he
  | m1l hi ext lo => cases hx; exact matchCopy_failsCheck (by omega) hb he
  | m2ns l hi lo => cases hx; exact matchCopy_failsCheck (by omega) hb he
  | m2nl hi k c lo => cases hx; exact matchCopy_failsCheck (by omega) hb he
  | m2fs l exhi exlo => cases hx; exact matchCopy_failsCheck (by omega) hb he
  | m2fl k c exhi exlo => cases hx; exact matchCopy_failsCheck (by omega) hb he
  | adlLoad v => cases hf
  | adlPush b => cases hf
  | adlRead => cases hf
  | decStart => cases hf

/-- Every decoded opcode is a later one once the level is read: `HDR` is then `LIT` (R114). -/
theorem exec_decoded_eq_later {i : Instr} {rest : List Byte}
    (hd : decode (dialectOf s) (streamTail s) = .instr i rest) :
    ∃ d i', d ≠ .first ∧ i'.fits d = true ∧ exec i s = exec i' (withLevelRead s) := by
  cases hf : s.first with
  | false =>
    obtain ⟨-, hfits, -⟩ := spells_of_decode hd
    exact ⟨_, i, dialectOf_ne_first hf, hfits, by rw [withLevelRead_later hf]⟩
  | true =>
    rcases Nat.lt_or_ge s.ip.toNat s.inLen.toNat with hip | hip
    · obtain ⟨bs, hdecode⟩ := decode_of_first hf hip
      obtain ⟨hm, lits, -, -, rfl⟩ := decodeFirst_eq_instr_iff.1 (hdecode.symm.trans hd)
      exact ⟨.level1, .lit lits, by decide, rfl, by rw [exec_hdr_of_legal hm, setLevel_of_legal_tag hf hip hm]⟩
    · cases (decode_noTag hip).symm.trans hd

/-- Bytes that are no opcode raise for an illegal marker, or for a byte that is missing after the level is read. -/
theorem fetchError_of_decode {r : DecodeReject} (hd : decode (dialectOf s) (streamTail s) = .reject r) :
    fetchError r s = raiseDecodeError .level s.ip s ∨
      fetchError r s = raiseDecodeError .inUnderrun s.ip (withLevelRead s) := by
  rcases Nat.lt_or_ge s.ip.toNat s.inLen.toNat with hip | hip
  · cases hf : s.first with
    | false =>
      obtain ⟨bs, htail⟩ := streamTail_eq_cons hip
      cases decode_later_reject (dialectOf_ne_first hf) (htail ▸ List.cons_ne_nil _ _) hd
      exact .inr (by rw [withLevelRead_later hf]; rfl)
    | true =>
      obtain ⟨bs, hdecode⟩ := decode_of_first hf hip
      rcases decodeFirst_reject (hdecode.symm.trans hd) with ⟨-, rfl⟩ | ⟨hm, rfl⟩
      · exact .inl rfl
      · exact .inr (by rw [← setLevel_of_legal_tag hf hip hm]; rfl)
  · cases (decode_noTag hip).symm.trans hd
    exact .inr (by rw [withLevelRead_noTag hip]; rfl)

/-- The stop rule never makes an error (R117). -/
theorem stopRule_eq_of_error (he : (stopRule s).st = .error) : stopRule s = s := by
  rcases stopRule_cases s with ⟨-, -, e⟩ | ⟨-, e⟩
  · rw [e] at he; cases he
  · exact e

/-- A turn of DEC that raises met an illegal marker and did nothing before it, or a check failed once the level was
read (R211, R215). -/
theorem decTurn_raises (hb : s.st = .busy) (h : decTurn s = .next t) (he : t.st = .error) :
    t = raiseDecodeError .level s.ip s ∨
      ∃ code, CheckCode code ∧ t = raiseDecodeError code s.ip (withLevelRead s) := by
  rcases decTurn_cases s with ⟨hn, -⟩ | ⟨-, i, rest, v, hd, hx, e⟩ | ⟨-, r, hd, e⟩
  · exact absurd hb hn
  · cases e.symm.trans h
    have hstop : stopRule v = v := stopRule_eq_of_error he
    rw [hstop] at he ⊢
    obtain ⟨d, i', hlater, hfits, hexec⟩ := exec_decoded_eq_later hd
    obtain ⟨code, hc, hv⟩ := exec_later_failsCheck hlater hfits (by simpa using hb) (hexec.symm.trans hx) he
    exact .inr ⟨code, hc, by rw [hv, withLevelRead_ip]⟩
  · cases e.symm.trans h
    exact (fetchError_of_decode hd).imp_right fun e => ⟨_, .inl rfl, e⟩

end Sys2Proof.Machine
end

section
/-! SUPPORT. What the host can change outside `BUSY` without a start: nothing of a run's result
(spec/60_exceptions.md R216). -/

namespace Sys2Proof.Machine

open Sys2Proof.Claim

/-- `s` with the host's side of `t`: the sums, what the host loads before a run, what it read, and the turns to come. -/
def withHostSideOf (t s : State) : State :=
  { s with
    s1 := t.s1, s2 := t.s2, inLen := t.inLen, outCap := t.outCap, mode := t.mode, inBuf := t.inBuf,
    inputs := t.inputs, hostRd := t.hostRd }

/-- Everything but the host's side is the same. -/
def OnlyHostSide (s t : State) : Prop := t = withHostSideOf t s

variable {s t : State}

theorem onlyHostSide_writeReg (p : Config.Params) (r : HostReg) (v : Word) (s : State) :
    OnlyHostSide s (writeReg p r v s) := by
  cases r with
  | decMode | decInLen | decOutCap => simp only [writeReg]; split <;> rfl
  | _ => rfl

theorem onlyHostSide_hostAccess (p : Config.Params) (h : HostOp) (s : State) : OnlyHostSide s (hostAccess p h s) := by
  cases h with
  | writeReg r v => exact onlyHostSide_writeReg p r v s
  | writeIn a b => simp only [hostAccess, writeInWindow]; split <;> rfl
  | _ => rfl

/-- A turn of the host that is no start does its work on the host's side. -/
theorem onlyHostSide_of_host {h : HostOp} {rest : List Input} (hin : s.inputs = .host h :: rest)
    (hstart : ¬ startComes s) (hstep : step s = .next t) : OnlyHostSide s t := by
  rcases decodeHost_cases h with ⟨-, v, rfl, hodd⟩ | ⟨v, hd⟩ | ⟨b, hd⟩ | hd | hd
  · exact absurd ⟨v, rest, hin, hodd⟩ hstart
  · cases (step_of_command hin hd).symm.trans hstep; rfl
  · cases (step_of_command hin hd).symm.trans hstep; rfl
  · cases (step_of_command hin hd).symm.trans hstep; rfl
  · cases (step_of_access hin hd).symm.trans hstep
    exact onlyHostSide_hostAccess _ h { s with inputs := rest }

/-- Outside `BUSY` every turn but RESET and a start does its work on the host's side. -/
theorem onlyHostSide_of_step (hb : s.st ≠ .busy) (hreset : ¬ resetComes s) (hstart : ¬ startComes s)
    (hstep : step s = .next t) : OnlyHostSide s t := by
  by_cases hhost : hostComes s
  · obtain ⟨h, rest, hin⟩ := hhost
    exact onlyHostSide_of_host hin hstart hstep
  · obtain ⟨rest, hdec⟩ := step_of_dec_turn hreset hhost
    cases (decTurn_of_not_busy (s := { s with inputs := rest }) hb).symm.trans (hdec.symm.trans hstep)
    rfl

end Sys2Proof.Machine
end

section
/-! PROOFS. The statements of spec/60_exceptions.md: the decode error of a stream cut off in its first opcode, what an
error leaves as it was, and how long it holds. -/

namespace Sys2Proof.Proofs

open Sys2Proof.Machine Sys2Proof.Claim

/-- Settles O24: the tag is there, so the decoder knows the marker when it misses the other bytes, and the level is set
before the error is raised. -/
theorem cutOffFirstOpcodeRaisesUnderrun : Obligations.CutOffFirstOpcodeRaisesUnderrun := by
  intro s m lits missing ⟨hin, hb⟩ hfirst hw hbs hmissing hcut
  obtain ⟨hm, hcutOff⟩ := decode_first_cut hw hbs hmissing hcut
  have hreject : decode (dialectOf s) (streamTail s) = .reject (.truncated (some m)) := by
    rw [dialectOf, if_pos hfirst]; exact hcutOff
  rw [step_of_no_input hin, decTurn_of_reject hb hreject, fetchError, setLevel_of_legal hm]
  rfl

/-- Settles O26: by the two ways a turn of DEC raises. An illegal marker changes nothing but what the error records; a
failed check also has the level, which the tag of a first opcode gives. -/
theorem errorsArePrecise : Obligations.ErrorsArePrecise := by
  intro s t ⟨hin, hb⟩ hstep he
  rcases decTurn_raises hb ((step_of_no_input hin).symm.trans hstep) he with rfl | ⟨code, hc, rfl⟩
  · exact ⟨rfl, .inl ⟨rfl, rfl, rfl⟩⟩
  refine ⟨?frame, .inr ⟨hc, fun hf => ?later, fun hf hip => ?first⟩⟩
  case frame => unfold withLevelRead; split <;> rfl
  case later => rw [withLevelRead_later hf]; exact ⟨hf, rfl⟩
  case first => rw [withLevelRead_first hf hip]; exact ⟨rfl, rfl⟩

/-- Settles O30: in `ERROR` every other turn works on the host's side only, to which none of these registers belongs. -/
theorem errorHoldsUntilStartOrReset : Obligations.ErrorHoldsUntilStartOrReset := by
  intro s t he hstep hreset hstart
  have hframe : t = withHostSideOf t s := onlyHostSide_of_step (by rw [he]; decide) hreset hstart hstep
  rw [hframe]
  exact ⟨he, rfl, rfl, rfl, rfl, rfl, rfl⟩

/-- Settles O25: with no turn listed DEC has it, and outside `BUSY` it takes no step. -/
theorem nothingHappensOutsideBusy : Obligations.NothingHappensOutsideBusy :=
  fun _ hin hb => (step_of_no_input hin).trans (decTurn_of_not_busy hb)

end Sys2Proof.Proofs
end

section
/-! SUPPORT. The `BUSY` gate (spec/70_reset_and_hazards.md R247), one lemma for each gated write, and RESET as a step
(R240). -/

namespace Sys2Proof.Machine

open Sys2Proof.Claim

variable {s : State}

/-! ### The gate -/

theorem writeInWindow_of_busy (hb : s.st = .busy) (p : Config.Params) (a : Nat) (b : Byte) :
    writeInWindow p a b s = s := if_neg fun hc => hc.2 hb

theorem writeReg_decMode_of_busy (hb : s.st = .busy) (p : Config.Params) (v : Word) :
    writeReg p .decMode v s = s := if_pos hb

theorem writeReg_decInLen_of_busy (hb : s.st = .busy) (p : Config.Params) (v : Word) :
    writeReg p .decInLen v s = s := if_pos hb

theorem writeReg_decOutCap_of_busy (hb : s.st = .busy) (p : Config.Params) (v : Word) :
    writeReg p .decOutCap v s = s := if_pos hb

/-- A write of `DEC_CMD` is a start, which the gate ignores, or an access, which does nothing in any state (R111). -/
theorem hostTurn_decCmd_of_busy (hb : s.st = .busy) (v : Word) : hostTurn (.writeReg .decCmd v) s = .next s := by
  by_cases hodd : v.toNat % 2 = 1
  · exact (hostTurn_of_command ((decodeHost_decCmd v).trans (if_pos hodd)) s).trans (execDecStart_of_busy hb)
  · exact hostTurn_of_access ((decodeHost_decCmd v).trans (if_neg hodd)) s

/-! ### RESET -/

theorem step_of_reset {rest : List Input} (hin : s.inputs = .reset :: rest) :
    step s = .next (resetBlock { s with inputs := rest }) := step_of_input hin

/-- RESET gives every register what the reset state has there. -/
theorem resetRegisters_resetBlock (s : State) : resetRegisters (resetBlock s) := Proofs.resetStateRegisters

end Sys2Proof.Machine
end

section
/-! PROOFS. The statements of spec/70_reset_and_hazards.md: the `BUSY` gate and RESET. -/

namespace Sys2Proof.Proofs

open Sys2Proof.Machine

/-- Settles O50: four of the writes are accesses that the gate turns into nothing; a write of `DEC_CMD` may be a start,
which is ignored. -/
theorem busyGateIgnoresWrites : Obligations.BusyGateIgnoresWrites := by
  intro s h rest hb hin hgated
  have hbusy : ({ s with inputs := rest } : State).st = .busy := hb
  rcases hgated with ⟨a, b, rfl⟩ | ⟨v, rfl⟩ | ⟨v, rfl⟩ | ⟨v, rfl⟩ | ⟨v, rfl⟩
  · exact (step_of_access hin rfl).trans (congrArg _ (writeInWindow_of_busy hbusy _ a b))
  · exact (step_of_writeReg hin rfl).trans (congrArg _ (writeReg_decInLen_of_busy hbusy _ v))
  · exact (step_of_writeReg hin rfl).trans (congrArg _ (writeReg_decOutCap_of_busy hbusy _ v))
  · exact (step_of_writeReg hin rfl).trans (congrArg _ (writeReg_decMode_of_busy hbusy _ v))
  · exact (step_of_input hin).trans (hostTurn_decCmd_of_busy hbusy v)

/-- Settles O56: the step is `resetBlock`, which has the registers of R27 and forgets both buffers. -/
theorem resetFromAnyState : Obligations.ResetFromAnyState := fun s rest hin =>
  ⟨_, step_of_reset hin, resetRegisters_resetBlock _, resetBlock_inBuf _, resetBlock_outBuf _,
    resetBlock_outExtent _, resetBlock_inputs { s with inputs := rest }⟩

end Sys2Proof.Proofs
end
